-- ==== Sys2Proof/Word.lean ====
section
/-! DEFINITION. The two data widths of the engine (spec/00_scope.md R11, R13): 64-bit words and 8-bit bytes, all unsigned.
Addition, exclusive or and shifts are `BitVec`'s own: addition wraps modulo 2^64 (R14). -/

namespace Sys2Proof

/-- A 64-bit word of `h`, `t`, `f`, `v`, `m` and `IV` (R11, parameter `W`). Bit 0 is the least significant (R13). -/
abbrev Word := BitVec 64

/-- A byte of the buffer, of the parameter block and of the two streams (R11, `CS_WIDTH`, `DS_WIDTH`). -/
abbrev Byte := BitVec 8

/-- "all-ones", `0xffffffffffffffff` (R14). -/
abbrev Word.allOnes : Word := BitVec.allOnes 64

end Sys2Proof
end

