-- ==== Sys2Proof/Machine/Bytes.lean ====
section
/-! DEFINITION. Byte order and byte strings (spec/00_scope.md R15, R16; spec/20_memory.md R58): every conversion between
bytes and words is little-endian. -/

namespace Sys2Proof.Machine

/-- `zeros(k)`: k bytes `0x00` (R16). -/
def zeros (k : Nat) : List Byte := List.replicate k 0

/-- The unsigned integer a byte string spells, first byte least significant: `b0 + 2^8·b1 + 2^16·b2 + …` (R15). -/
def leNat : List Byte → Nat
  | [] => 0
  | b :: bs => b.toNat + 2 ^ 8 * leNat bs

/-- `LE64(b0, …, b7)` (R15). -/
def le64 (bs : List Byte) : Word := BitVec.ofNat 64 (leNat bs)

/-- Byte k of a word, bits `[8k+7 : 8k]` (R15, R99). -/
def byteOf (w : Word) (k : Nat) : Byte := w.extractLsb' (8 * k) 8

/-- `LE64_BYTES(w)`: the eight bytes `w[7:0], w[15:8], …, w[63:56]` (R15). -/
def le64Bytes (w : Word) : List Byte :=
  [byteOf w 0, byteOf w 1, byteOf w 2, byteOf w 3, byteOf w 4, byteOf w 5, byteOf w 6, byteOf w 7]

end Sys2Proof.Machine
end

