-- ==== Sys2Proof/Machine/Compression.lean ====
section
/-! DEFINITION. The compression function (spec/41_compression_function.md): G, ROUND and F, all pure, and their constants
and index tables (spec/30_encoding.md R97 to R105). The values of IV and of SIGMA's rows are the spec's from general
knowledge (R100, R104, R105); log entry 10. -/

namespace Sys2Proof.Machine

/-- `rotr(x, n)`, rotation right by n bit positions, 0 < n < 64 (spec/00_scope.md R14). -/
def rotr (x : Word) (n : Nat) : Word := (x >>> n) ||| (x <<< (64 - n))

/-- `IV[0]` to `IV[7]` (R100). -/
def iv : Vector Word 8 :=
  #v[0x6a09e667f3bcc908, 0xbb67ae8584caa73b, 0x3c6ef372fe94f82b, 0xa54ff53a5f1d36f1,
    0x510e527fade682d1, 0x9b05688c2b3e6c1f, 0x1f83d9abfb41bd6b, 0x5be0cd19137e2179]

/-- SIGMA, the message schedule: 12 rows of 16 indices into `m` (R102, R105). -/
def sigma : Vector (Vector (Fin 16) 16) 12 :=
  #v[#v[0, 1, 2, 3, 4, 5, 6, 7, 8, 9, 10, 11, 12, 13, 14, 15],
    #v[14, 10, 4, 8, 9, 15, 13, 6, 1, 12, 0, 2, 11, 7, 5, 3],
    #v[11, 8, 12, 0, 5, 2, 15, 13, 10, 14, 3, 6, 7, 1, 9, 4],
    #v[7, 9, 3, 1, 13, 12, 11, 14, 2, 6, 5, 10, 4, 0, 15, 8],
    #v[9, 0, 5, 7, 2, 4, 10, 15, 14, 1, 11, 12, 6, 8, 3, 13],
    #v[2, 12, 6, 10, 0, 11, 8, 3, 4, 13, 7, 5, 15, 14, 1, 9],
    #v[12, 5, 1, 15, 14, 13, 4, 10, 0, 7, 6, 3, 9, 2, 8, 11],
    #v[13, 11, 7, 14, 12, 1, 3, 9, 5, 0, 15, 4, 8, 6, 2, 10],
    #v[6, 15, 14, 9, 11, 3, 0, 8, 12, 2, 13, 7, 1, 4, 10, 5],
    #v[10, 2, 8, 4, 7, 6, 1, 5, 15, 11, 9, 14, 3, 12, 13, 0],
    #v[0, 1, 2, 3, 4, 5, 6, 7, 8, 9, 10, 11, 12, 13, 14, 15],
    #v[14, 10, 4, 8, 9, 15, 13, 6, 1, 12, 0, 2, 11, 7, 5, 3]]

/-- The working-vector indices `(a, b, c, d)` one application of G acts on. -/
structure Quad where
  a : Fin 16
  b : Fin 16
  c : Fin 16
  d : Fin 16
  deriving DecidableEq, Repr

/-- The quadruple schedule: four column applications, then four diagonal ones (R103). -/
def quads : Vector Quad 8 :=
  #v[⟨0, 4, 8, 12⟩, ⟨1, 5, 9, 13⟩, ⟨2, 6, 10, 14⟩, ⟨3, 7, 11, 15⟩,
    ⟨0, 5, 10, 15⟩, ⟨1, 6, 11, 12⟩, ⟨2, 7, 8, 13⟩, ⟨3, 4, 9, 14⟩]

/-- The eight lines of G on the four words it reads, with the message words x and y; the results in the order
`v[a], v[b], v[c], v[d]` (R151). -/
def mixWords (a b c d x y : Word) : Word × Word × Word × Word :=
  let a := a + b + x
  let d := rotr (d ^^^ a) 32
  let c := c + d
  let b := rotr (b ^^^ c) 24
  let a := a + b + y
  let d := rotr (d ^^^ a) 16
  let c := c + d
  let b := rotr (b ^^^ c) 63
  (a, b, c, d)

/-- G(v, a, b, c, d, x, y) (R151). The schedule gives it four distinct indices only (R103, R152);
total on the others (DESIGN CHOICE, log entry 16). -/
def mixG (v : Vector Word 16) (q : Quad) (x y : Word) : Vector Word 16 :=
  let r := mixWords v[q.a] v[q.b] v[q.c] v[q.d] x y
  (((v.set q.a r.1).set q.b r.2.1).set q.c r.2.2.1).set q.d r.2.2.2

/-- Sub-step i of round r: quadruple i with the message words `m[SIGMA[r][2i]]` and `m[SIGMA[r][2i+1]]` (R104, R106). -/
def subStep (m : Vector Word 16) (r : Fin 12) (v : Vector Word 16) (i : Fin 8) : Vector Word 16 :=
  mixG v quads[i] m[sigma[r][2 * i.val]] m[sigma[r][2 * i.val + 1]]

/-- ROUND(v, m, r): the eight sub-steps in order, columns before diagonals (R153). -/
def round (m : Vector Word 16) (v : Vector Word 16) (r : Fin 12) : Vector Word 16 :=
  [0, 1, 2, 3, 4, 5, 6, 7].foldl (subStep m r) v

/-- Rounds 0 to 11 in this order (R154, `ROUNDS` = 12). -/
def allRounds (m v : Vector Word 16) : Vector Word 16 :=
  [0, 1, 2, 3, 4, 5, 6, 7, 8, 9, 10, 11].foldl (round m) v

/-- `m[j] = LE64(block[8j], …, block[8j+7])` (R97). -/
def messageWord (block : List Byte) (j : Nat) : Word := le64 ((block.drop (8 * j)).take 8)

/-- The block as sixteen little-endian words `m[0]` to `m[15]` (R97). -/
def messageWords (block : List Byte) : Vector Word 16 :=
  #v[messageWord block 0, messageWord block 1, messageWord block 2, messageWord block 3,
    messageWord block 4, messageWord block 5, messageWord block 6, messageWord block 7,
    messageWord block 8, messageWord block 9, messageWord block 10, messageWord block 11,
    messageWord block 12, messageWord block 13, messageWord block 14, messageWord block 15]

/-- The working vector at the start of F (R98). -/
def initialVector (h : Vector Word 8) (t0 t1 f0 f1 : Word) : Vector Word 16 :=
  #v[h[0], h[1], h[2], h[3], h[4], h[5], h[6], h[7],
    iv[0], iv[1], iv[2], iv[3], iv[4] ^^^ t0, iv[5] ^^^ t1, iv[6] ^^^ f0, iv[7] ^^^ f1]

/-- `h'[i] = h[i] ⊕ v[i] ⊕ v[i+8]`, h the chaining value F was given (R154). -/
def feedForward (h : Vector Word 8) (v : Vector Word 16) : Vector Word 8 :=
  Vector.ofFn fun i : Fin 8 => h[i.val] ^^^ v[i.val] ^^^ v[i.val + 8]

/-- F(h, block, t, f) (R154): total on every input (R155). -/
def compressF (h : Vector Word 8) (block : List Byte) (t0 t1 f0 f1 : Word) : Vector Word 8 :=
  feedForward h (allRounds (messageWords block) (initialVector h t0 t1 f0 f1))

end Sys2Proof.Machine
end

