-- ==== Sys2Proof/Config.lean ====
section
/-! DEFINITION. The free values: what spec/10_state.md R46 and R25 leave unspecified after reset
(spec/93_implementation_defined.md U1 and U2 give the treatment "any value"). Each is a constant without a body, so
nothing can be proved about its value and a claim that mentions one holds for every value of it. Log entries 1 and 2.

There is nothing else to configure: every parameter of spec/00_scope.md R11 has one value on this hardware and none is
left open (spec/93_implementation_defined.md, "There are no `parameter` items"). -/

namespace Sys2Proof

/-- What `h[i]` holds after reset (R46: unspecified). DESIGN CHOICE, log entry 1. -/
opaque Config.resetH : Nat → Word

/-- What `t[i]` holds after reset (R46: unspecified). DESIGN CHOICE, log entry 1. -/
opaque Config.resetT : Nat → Word

/-- What `f[i]` holds after reset (R46: unspecified). DESIGN CHOICE, log entry 1. -/
opaque Config.resetF : Nat → Word

/-- What `n` holds after reset (R46: unspecified). DESIGN CHOICE, log entry 1. -/
opaque Config.resetN : Fin 129

/-- What `output_length` holds after reset (R46: unspecified). DESIGN CHOICE, log entry 1. -/
opaque Config.resetOutputLength : BitVec 7

/-- What the buffer cell at an index holds that nothing has written since reset (R25, R46: unspecified).
DESIGN CHOICE, log entry 2. -/
opaque Config.unwrittenByte : Nat → Byte

end Sys2Proof
end

