-- ==== Sys2Proof/Machine/State.lean ====
section
/-! DEFINITION. The state of the engine (spec/10_state.md) and its value after reset (R46, spec/70_reset_and_hazards.md
R281). -/

namespace Sys2Proof.Machine

/-- `phase`, the lifecycle flag (R28). Its 2-bit codes are `Phase.code`. -/
inductive Phase where
  /-- no instance: after reset -/
  | idle
  /-- an instance exists and has not been finalised -/
  | active
  /-- the instance has been finalised -/
  | consumed
  /-- a fatal precondition fault has been taken -/
  | fault
  deriving DecidableEq, Repr

/-- `cause`, the fault cause (R29, spec/60_exceptions.md R241). Its 4-bit codes are `Cause.code`. -/
inductive Cause where
  /-- NONE: `phase` is not FAULT -/
  | noFault
  /-- PARAM_RANGE: a construction command with an operand out of range (R242) -/
  | paramRange
  /-- OUTLEN_MISMATCH: FINISH with `rl` ≠ `output_length` (R243) -/
  | outlenMismatch
  /-- USE_AFTER_FINISH: ABSORB or FINISH in phase CONSUMED (R244) -/
  | useAfterFinish
  /-- NO_INSTANCE: ABSORB or FINISH in phase IDLE (R245) -/
  | noInstance
  /-- ILLEGAL_OPCODE: a byte at a frame start that spells no command (R247) -/
  | illegalOpcode
  deriving DecidableEq, Repr

/-- The address space BUF (spec/20_memory.md R51): the cells written since reset with what they hold, indices 0 to 127.
An unlisted cell reads as `Config.unwrittenByte` of its index. -/
abbrev Memory := List Host.Cell

/-- The one form a `Memory` takes: indices strictly rising, none above 127 (R51). No entry can equal what an unlisted
cell reads as, since that is a free value (DESIGN CHOICE, log entry 2). -/
def Memory.wf (m : Memory) : Bool :=
  decide (m.Pairwise fun x y => x.1 < y.1) && m.all fun x => x.1 < 128

/-- Everything the spec gives the engine. -/
structure State where
  /-- `h[0]` to `h[7]`, the chaining value (R21) -/
  h : Vector Word 8
  /-- `t[0]`, the low half of the byte counter (R22) -/
  t0 : Word
  /-- `t[1]`, the high half of the byte counter (R22) -/
  t1 : Word
  /-- `f[0]`, the last-block flag (R23) -/
  f0 : Word
  /-- `f[1]`, reserved for tree mode and never set (R24) -/
  f1 : Word
  /-- `buf[0]` to `buf[127]`, the block buffer's cells (R25, spec/20_memory.md R51) -/
  buf : Memory
  /-- `n`, the number of bytes in the buffer; 129 to 255 never occur (R26; DESIGN CHOICE, log entry 9) -/
  n : Fin 129
  /-- `output_length`, the digest length of the instance (R27) -/
  outputLength : BitVec 7
  /-- `phase` (R28) -/
  phase : Phase
  /-- `cause` (R29) -/
  cause : Cause
  /-- CS: the bytes the host has sent that belong to no completed command (spec/20_memory.md R55). It begins at a frame
  start, so it holds the frame parser's position too (R36; DESIGN CHOICE, log entry 7). -/
  cs : List Byte
  /-- DS: every byte emitted since reset, in order (R37; DESIGN CHOICE, log entry 8) -/
  ds : List Byte
  deriving DecidableEq, Repr

/-- Why the model has no next state. This is not the engine's own Fault, which is a transition to `Phase.fault`
(`takeFault`). DESIGN CHOICE, log entry 5. -/
inductive Fault where
  /-- Raised by `step` alone, in every phase but FAULT, when CS is empty: every command sent has been executed, so the run
  has ended unless the host sends more (spec/00_scope.md R10, spec/70_reset_and_hazards.md R298). Safe: the engine does
  nothing there. -/
  | sequenceExhausted
  /-- Raised by `step` alone, in every phase but FAULT, when CS holds the beginning of a frame and not the whole of it: "the
  engine waits; it has no step" (spec/20_memory.md R56), the stuck agent of spec/60_exceptions.md R265. Safe: the engine
  does nothing there until the host sends more bytes. -/
  | incompleteFrame
  deriving DecidableEq, Repr

/-- Why a command has no meaning in the model. -/
inductive Refusal where
  /-- Raised by an arm of `exec` for a command not modelled yet. Safe. No arm raises it: every command has its
  meaning. -/
  | notModelled (mnemonic : String)
  deriving DecidableEq, Repr

/-- The reset state (R46, R281): `phase` IDLE, `cause` NONE, the frame parser at frame start, DS empty, no buffer cell
written. What R46 leaves unspecified is a free value of `Config` (log entry 1). CS is empty: that whole frames sent before
the reset and not yet taken are dropped with the one in progress is the model's choice (DESIGN CHOICE, log entry 21). -/
def State.reset : State where
  h := #v[Config.resetH 0, Config.resetH 1, Config.resetH 2, Config.resetH 3,
    Config.resetH 4, Config.resetH 5, Config.resetH 6, Config.resetH 7]
  t0 := Config.resetT 0
  t1 := Config.resetT 1
  f0 := Config.resetF 0
  f1 := Config.resetF 1
  buf := []
  n := Config.resetN
  outputLength := Config.resetOutputLength
  phase := .idle
  cause := .noFault
  cs := []
  ds := []

end Sys2Proof.Machine
end

