-- ==== Sys2Proof/Machine/Flags.lean ====
section
/-! DEFINITION. The status codes and the STATUS output (spec/10_state.md R28, R29, R31; spec/60_exceptions.md R241) and the
last-block flag (R23). No arithmetic sets a flag: a carry or an overflow is recorded nowhere (spec/00_scope.md R14). -/

namespace Sys2Proof.Machine

/-- The 2-bit encoding of `phase` (R28). -/
def Phase.code : Phase → BitVec 2
  | .idle => 0
  | .active => 1
  | .consumed => 2
  | .fault => 3

/-- The 4-bit encoding of `cause` (R241). -/
def Cause.code : Cause → BitVec 4
  | .noFault => 0
  | .paramRange => 1
  | .outlenMismatch => 2
  | .useAfterFinish => 3
  | .noInstance => 4
  | .illegalOpcode => 5

/-- STATUS, the read-only output the host samples between commands (R31): `[7:4]` `cause`, `[3:2]` zero, `[1:0]`
`phase`. Reading it changes nothing, so it is a function of the state. -/
def status (s : State) : BitVec 8 := s.cause.code ++ (0 : BitVec 2) ++ s.phase.code

/-- `f[0] <- 0; f[1] <- 0`, as every construction command does (spec/40_parameter_block_builder.md R124). -/
def clearFlags (s : State) : State := { s with f0 := 0, f1 := 0 }

/-- `f[0] <- 0xffffffffffffffff`, as FINISH does; `f[1]` is not written (spec/43_finalizer.md R213). -/
def setLastBlock (s : State) : State := { s with f0 := Word.allOnes }

end Sys2Proof.Machine
end

