-- ==== Sys2Proof/Machine/Ops.lean ====
section
/-! DEFINITION. The named operations over the state: the buffer's cells (spec/20_memory.md R51 to R54), the streams (R55,
R57), the counter (spec/42_block_buffer_manager.md R181), fault entry (spec/60_exceptions.md R246) and reset, the one
way out of it (R251, spec/70_reset_and_hazards.md R280). -/

namespace Sys2Proof.Machine

/-- What a cell list holds at an index. -/
def lookupCell : Memory → Nat → Option Byte
  | [], _ => none
  | (x, c) :: m, a => if x = a then some c else lookupCell m a

/-- `MemRead(addr, 1)` (R53): `buf[addr]`. A cell nothing has written since reset holds a free value (log entry 2). -/
def readByte (m : Memory) (a : Fin 128) : Byte :=
  (lookupCell m a.val).getD (Config.unwrittenByte a.val)

/-- `MemRead(addr, 8)` (R53): eight cells from `addr`, assembled little-endian, for `addr` up to 120. -/
def readWord (m : Memory) (a : Fin 121) : Word :=
  le64 ((List.range 8).map fun k => readByte m (Fin.ofNat 128 (a.val + k)))

/-- Replaces or inserts the entry of an index, keeping the indices rising. -/
def writeCell : Memory → Nat → Byte → Memory
  | [], a, b => [(a, b)]
  | (x, c) :: m, a, b =>
    if a < x then (a, b) :: (x, c) :: m
    else if a = x then (a, b) :: m
    else (x, c) :: writeCell m a b

/-- `MemWrite(addr, 1, e)` (R54): `buf[addr] <- e[7:0]`. -/
def writeByte (m : Memory) (a : Fin 128) (b : Byte) : Memory := writeCell m a.val b

/-- `MemWrite(addr, 8, e)` (R54): eight cells from `addr`, least significant byte at `addr`. No rule uses it. -/
def writeWord (m : Memory) (a : Fin 121) (e : Word) : Memory :=
  (List.range 8).foldl (fun m k => writeByte m (Fin.ofNat 128 (a.val + k)) (byteOf e k)) m

/-- `buf[0..k]`, the first k cells in index order (R25). -/
def bufPrefix (m : Memory) (k : Nat) : List Byte :=
  (List.range k).map fun a => readByte m (Fin.ofNat 128 a)

/-- `buf[0..128]`, the whole block, as F reads it (R51). -/
def wholeBlock (m : Memory) : List Byte := bufPrefix m 128

/-- CS holds these bytes and no others: what is left once a frame has been taken, or what has arrived (R55). -/
def setStream (cs : List Byte) (s : State) : State := { s with cs := cs }

/-- `emit` of each byte in order (R57). -/
def emit (bs : List Byte) (s : State) : State := { s with ds := s.ds ++ bs }

/-- The 128-bit counter value `T = t[0] + 2^64 · t[1]` (spec/10_state.md R22). -/
def counter (s : State) : Nat := s.t0.toNat + 2 ^ 64 * s.t1.toNat

/-- CTR_ADD(k) (R181): add k to the low word, the carry to the high word; the high word wraps silently (log
entry 12). -/
def ctrAdd (k : Nat) (s : State) : State :=
  let sum := s.t0.toNat + k
  let carry : Word := if 2 ^ 64 ≤ sum then 1 else 0
  { s with t0 := BitVec.ofNat 64 sum, t1 := s.t1 + carry }

/-- `raise Fault(c)` (R246): `phase <- FAULT; cause <- c`, and nothing else. Nothing is saved, there is no handler and no
vector; the engine stops accepting commands. The faulted state is a next state of the step (DESIGN CHOICE, log entry 3). -/
def takeFault (c : Cause) (s : State) : State := { s with phase := .fault, cause := c }

/-- Reset (spec/70_reset_and_hazards.md R280, R281, R282): the reset state, whatever the engine was doing. There is no
return from a fault; this is the only exit from phase FAULT (R251). DESIGN CHOICE, log entry 20. Every byte
waiting on CS is dropped, whole frames not yet taken among them, in every phase (DESIGN CHOICE, log entry 21: R282 speaks
of the command and the frame in progress only). -/
def hostReset (_ : State) : State := State.reset

/-- The host sends bytes on CS (R55). In phase FAULT they are discarded without being parsed
(spec/60_exceptions.md R249). -/
def hostSend (bs : List Byte) (s : State) : State :=
  match s.phase with
  | .fault => s
  | .idle => setStream (s.cs ++ bs) s
  | .active => setStream (s.cs ++ bs) s
  | .consumed => setStream (s.cs ++ bs) s

/-- In phase FAULT the bytes on CS are discarded without being parsed (spec/60_exceptions.md R249; DESIGN CHOICE, log
entry 6). -/
def discardStream (s : State) : State := setStream [] s

end Sys2Proof.Machine
end

