-- ==== Sys2Proof/Machine/Absorb.lean ====
section
/-! DEFINITION. The absorb/buffer manager (spec/42_block_buffer_manager.md): COMPRESS_FULL, PUSH_BYTE, ABSORB_BODY and the
command ABSORB. -/

namespace Sys2Proof.Machine

/-- `h[0..8] <- F(h, buf[0..128], t, f)`, as COMPRESS_FULL and FINISH do it (R182, spec/43_finalizer.md R213). -/
def runF (s : State) : State :=
  { s with h := compressF s.h (wholeBlock s.buf) s.t0 s.t1 s.f0 s.f1 }

/-- COMPRESS_FULL() (R182): count the block, compress it, empty the buffer. The cells keep their bytes. -/
def compressFull (s : State) : State := { runF (ctrAdd 128 s) with n := 0 }

/-- `MemWrite(n, 1, b); n <- n + 1`, the append of PUSH_BYTE, for `n` < 128 (R183). -/
def appendByte (b : Byte) (s : State) : State :=
  { s with
    buf := writeByte s.buf (Fin.ofNat 128 s.n.val) b
    n := Fin.ofNat 129 (s.n.val + 1) }

/-- PUSH_BYTE(b) (R183): a full buffer with one more byte pending is compressed first. -/
def pushByte (s : State) (b : Byte) : State :=
  if s.n.val = 128 then appendByte b (compressFull s) else appendByte b s

/-- ABSORB_BODY(data) (R184): PUSH_BYTE of each byte in order. -/
def absorbBody (data : List Byte) (s : State) : State := data.foldl pushByte s

/-- ABSORB (R184): ignored in FAULT; NO_INSTANCE in IDLE; USE_AFTER_FINISH in CONSUMED; otherwise the body. -/
def execAbsorb (_len : Word) (data : List Byte) (s : State) : Host.Outcome State Fault Refusal :=
  match s.phase with
  | .fault => .next s
  | .idle => .next (takeFault .noInstance s)
  | .consumed => .next (takeFault .useAfterFinish s)
  | .active => .next (absorbBody data s)

end Sys2Proof.Machine
end

