-- ==== Sys2Proof/Syntax.lean ====
section
/-! DEFINITION. The commands (spec/30_encoding.md R82, spec/opcode_table.json): one constructor per row, its operands in
the order of the frame's fields. -/

namespace Sys2Proof

/-- The five host commands. The length fields `kk`, `sl`, `il` and `len` stand beside the strings they count, as they do
in the frame (R82), because a frame whose header is out of range ends at its header and carries no string (R89). That a
string has the length its field says is `Instr.WellFormed`. -/
inductive Instr where
  /-- INIT, format FI, `0x01, nn` (R83, R125). -/
  | init (nn : Byte)
  /-- INIT_MAC, format FM, `0x02, nn, kk, key` (R84, R126). -/
  | initMac (nn kk : Byte) (key : List Byte)
  /-- INIT_KDF, format FK, `0x03, nn, kk, sl, il, key, salt, info` (R85, R127). -/
  | initKdf (nn kk sl il : Byte) (key salt info : List Byte)
  /-- ABSORB, format FA, `0x04, len, data` (R86, R184). -/
  | absorb (len : Word) (data : List Byte)
  /-- FINISH, format FF, `0x05, rl` (R87, R213). -/
  | finish (rl : Byte)
  deriving DecidableEq, Repr

/-- A frame's opcode and fixed header fields, without the payload (R81, R82). -/
inductive Header where
  | init (nn : Byte)
  | initMac (nn kk : Byte)
  | initKdf (nn kk sl il : Byte)
  | absorb (len : Word)
  | finish (rl : Byte)
  deriving DecidableEq, Repr

/-- The header a command's frame begins with. -/
def Instr.header : Instr → Header
  | .init nn => .init nn
  | .initMac nn kk _ => .initMac nn kk
  | .initKdf nn kk sl il _ _ _ => .initKdf nn kk sl il
  | .absorb len _ => .absorb len
  | .finish rl => .finish rl

/-- Whether a command is one of the three construction commands (R124). -/
def Instr.isConstruction : Instr → Bool
  | .init _ => true
  | .initMac _ _ _ => true
  | .initKdf _ _ _ _ _ _ _ => true
  | .absorb _ _ => false
  | .finish _ => false

end Sys2Proof
end

