-- ==== Sys2Proof/Machine/Operands.lean ====
section
/-! DEFINITION. The operand ranges (spec/60_exceptions.md R242, spec/00_scope.md R11) and the payload lengths a header
announces (spec/30_encoding.md R82, R88, R89). Every operand is an unsigned byte or word used as it stands (R88). -/

namespace Sys2Proof.Machine

/-- "`nn` < 1 or `nn` > 64" is out of range (R242): `NN_MIN` = 1, `NN_MAX` = 64 (R11). -/
def nnInRange (nn : Byte) : Bool := 1 ≤ nn.toNat && nn.toNat ≤ 64

/-- `kk` > 64 is out of range, 0 is legal (R242): `KK_MAX` = 64 (R11). -/
def kkInRange (kk : Byte) : Bool := kk.toNat ≤ 64

/-- `sl` > 16 is out of range, 0 is legal (R242): `SALT_MAX` = 16 (R11). -/
def slInRange (sl : Byte) : Bool := sl.toNat ≤ 16

/-- `il` > 16 is out of range, 0 is legal (R242): `INFO_MAX` = 16 (R11). -/
def ilInRange (il : Byte) : Bool := il.toNat ≤ 16

/-- The four range guards of CONSTRUCT together; they share one cause, so their order cannot be observed (R252). -/
def paramsInRange (nn kk sl il : Byte) : Bool :=
  nnInRange nn && kkInRange kk && slInRange sl && ilInRange il

/-- Whether every header field is in range (R89): ABSORB's `len` and FINISH's `rl` may hold any value (R86, R87). -/
def headerInRange : Header → Bool
  | .init nn => paramsInRange nn 0 0 0
  | .initMac nn kk => paramsInRange nn kk 0 0
  | .initKdf nn kk sl il => paramsInRange nn kk sl il
  | .absorb _ => true
  | .finish _ => true

/-- How many payload bytes the header's length fields announce (R82). -/
def payloadLength : Header → Nat
  | .init _ => 0
  | .initMac _ kk => kk.toNat
  | .initKdf _ kk sl il => kk.toNat + sl.toNat + il.toNat
  | .absorb len => len.toNat
  | .finish _ => 0

/-- Bytes of a frame up to its last header byte, opcode included (R89: 1, 2, 4, 8 or 1 bytes after the opcode). -/
def headerLength : Header → Nat
  | .init _ => 2
  | .initMac _ _ => 3
  | .initKdf _ _ _ _ => 5
  | .absorb _ => 9
  | .finish _ => 2

end Sys2Proof.Machine
end

