-- ==== Sys2Proof/Machine/Construct.lean ====
section
/-! DEFINITION. The parameter block builder (spec/40_parameter_block_builder.md): PBUILD, H_INIT, KEYBLOCK, CONSTRUCT and
the commands INIT, INIT_MAC and INIT_KDF. -/

namespace Sys2Proof.Machine

/-- A 16-byte field of the parameter block: the string at the low offsets, zero bytes after it (R94, R95, R121;
log entries 11 and 19). -/
def paramField (bs : List Byte) : List Byte := (bs ++ zeros 16).take 16

/-- PBUILD(nn, kk, salt, info) (R121), the 64 bytes laid out as spec/30_encoding.md R92 gives: digest length, key length,
fan-out 1, depth 1, 28 zero bytes, salt at 32, info at 48. -/
def pBuild (nn kk : Byte) (salt info : List Byte) : List Byte :=
  [nn, kk, 0x01#8, 0x01#8] ++ zeros 28 ++ paramField salt ++ paramField info

/-- `h0[i] <- IV[i] xor P[i]` with `P[i] = LE64(PB[8i], …, PB[8i+7])` (R96, R122). -/
def hInitWord (pb : List Byte) (i : Fin 8) : Word := iv[i] ^^^ le64 ((pb.drop (8 * i.val)).take 8)

/-- H_INIT(PB) (R122). -/
def hInit (pb : List Byte) : Vector Word 8 :=
  #v[hInitWord pb 0, hInitWord pb 1, hInitWord pb 2, hInitWord pb 3,
    hInitWord pb 4, hInitWord pb 5, hInitWord pb 6, hInitWord pb 7]

/-- KEYBLOCK(key): the key bytes followed by zero padding to 128 (R123). -/
def keyBlock (key : List Byte) : List Byte := key ++ zeros (128 - key.length)

/-- The register writes of CONSTRUCT (R124): every register the later commands read, but for the buffer's cells. -/
def newInstance (nn kk : Byte) (salt info : List Byte) (s : State) : State :=
  { clearFlags s with
    h := hInit (pBuild nn kk salt info)
    t0 := 0
    t1 := 0
    n := 0
    outputLength := nn.setWidth 7
    phase := .active }

/-- CONSTRUCT (R124): ignored in FAULT; PARAM_RANGE if an operand is out of range; otherwise a new instance, in which a
non-empty key is absorbed as one block before any message byte. An instance in progress is abandoned (R129; log
entry 18). -/
def construct (nn kk sl il : Byte) (key salt info : List Byte) (s : State) : State :=
  if s.phase = .fault then s
  else if paramsInRange nn kk sl il then
    let s := newInstance nn kk salt info s
    if 0 < kk.toNat then absorbBody (keyBlock key) s else s
  else takeFault .paramRange s

/-- INIT (R125). -/
def execInit (nn : Byte) (s : State) : Host.Outcome State Fault Refusal :=
  .next (construct nn 0 0 0 [] [] [] s)

/-- INIT_MAC (R126). -/
def execInitMac (nn kk : Byte) (key : List Byte) (s : State) : Host.Outcome State Fault Refusal :=
  .next (construct nn kk 0 0 key [] [] s)

/-- INIT_KDF (R127). -/
def execInitKdf (nn kk sl il : Byte) (key salt info : List Byte) (s : State) :
    Host.Outcome State Fault Refusal :=
  .next (construct nn kk sl il key salt info s)

end Sys2Proof.Machine
end

