-- ==== Sys2Proof/Machine/Finish.lean ====
section
/-! DEFINITION. The finalizer (spec/43_finalizer.md): PAD, SERIALIZE and the command FINISH. -/

namespace Sys2Proof.Machine

/-- `buf[a] <- 0` for the last k indices up to 127, rising. -/
def zeroCells : Nat → Memory → Memory
  | 0, m => m
  | k + 1, m => zeroCells k (writeByte m (Fin.ofNat 128 (127 - k)) 0)

/-- PAD() (R211): zero bytes in `buf[n..128]`, then `n <- 128`. -/
def pad (s : State) : State := { s with buf := zeroCells (128 - s.n.val) s.buf, n := 128 }

/-- The 64 bytes S of SERIALIZE: `h[0]` to `h[7]`, each least significant byte first (R212, spec/30_encoding.md R99). -/
def digestBytes (h : Vector Word 8) : List Byte :=
  le64Bytes h[0] ++ le64Bytes h[1] ++ le64Bytes h[2] ++ le64Bytes h[3] ++
    le64Bytes h[4] ++ le64Bytes h[5] ++ le64Bytes h[6] ++ le64Bytes h[7]

/-- SERIALIZE(h, L) (R212): the first L bytes of S. -/
def serialize (h : Vector Word 8) (len : Nat) : List Byte := (digestBytes h).take len

/-- The last compression of FINISH (R213): count the buffered bytes, set the last-block flag, pad, run F. -/
def compressLast (s : State) : State := runF (pad (setLastBlock (ctrAdd s.n.val s)))

/-- The body of FINISH (R213): the last compression, the digest on DS, `phase <- CONSUMED`. The registers keep what it
leaves (R49; log entry 14). -/
def finishBody (s : State) : State :=
  let s := compressLast s
  { emit (serialize s.h s.outputLength.toNat) s with phase := .consumed }

/-- FINISH (R213): ignored in FAULT; NO_INSTANCE in IDLE; USE_AFTER_FINISH in CONSUMED; OUTLEN_MISMATCH if `rl` differs
from `output_length`; otherwise the body. -/
def execFinish (rl : Byte) (s : State) : Host.Outcome State Fault Refusal :=
  match s.phase with
  | .fault => .next s
  | .idle => .next (takeFault .noInstance s)
  | .consumed => .next (takeFault .useAfterFinish s)
  | .active =>
    if rl.toNat = s.outputLength.toNat then .next (finishBody s)
    else .next (takeFault .outlenMismatch s)

end Sys2Proof.Machine
end

