-- ==== Sys2Proof/Machine/Dispatch.lean ====
section
/-! DEFINITION. One arm per command: what it does to the state once its frame has been taken from CS. -/

namespace Sys2Proof.Machine

def exec (i : Instr) (s : State) : Host.Outcome State Fault Refusal :=
  match i with
  | .init nn => Sys2Proof.Machine.execInit nn s
  | .initMac nn kk key => Sys2Proof.Machine.execInitMac nn kk key s
  | .initKdf nn kk sl il key salt info => Sys2Proof.Machine.execInitKdf nn kk sl il key salt info s
  | .absorb len data => Sys2Proof.Machine.execAbsorb len data s
  | .finish rl => Sys2Proof.Machine.execFinish rl s

end Sys2Proof.Machine
end

