-- ==== Sys2Proof/WellFormed.lean ====
section
/-! DEFINITION. Which terms of `Instr` are commands a frame can carry (spec/30_encoding.md R82 to R89). -/

namespace Sys2Proof

/-- The strings have the lengths their fields announce (R84, R85, R86); where the header is out of range the frame ends
at its last header byte and carries no string (R89). -/
def Instr.WellFormed : Instr → Bool
  | .init _ => true
  | .initMac nn kk key =>
    bif Machine.headerInRange (.initMac nn kk) then key.length == kk.toNat else key == []
  | .initKdf nn kk sl il key salt info =>
    bif Machine.headerInRange (.initKdf nn kk sl il) then
      key.length == kk.toNat && salt.length == sl.toNat && info.length == il.toNat
    else key == [] && salt == [] && info == []
  | .absorb len data => data.length == len.toNat
  | .finish _ => true

end Sys2Proof
end

