-- ==== Sys2Proof/Decode.lean ====
section
/-! DEFINITION. The frame layer (spec/30_encoding.md R80 to R91): the decoder, total on any bytes, and the encoder, written
from the same table R82. Frames follow one another with nothing between them, so the decoder gives the bytes that are
left. -/

namespace Sys2Proof

open Machine

/-- What the bytes at a frame start are, up to the last header byte. -/
inductive HeaderResult where
  /-- a whole header, and the bytes after it -/
  | header (h : Header) (rest : List Byte)
  /-- the header's last byte has not arrived (spec/20_memory.md R56) -/
  | incomplete
  /-- the opcode byte spells no command (R90), and the bytes after it -/
  | illegal (op : Byte) (rest : List Byte)
  deriving DecidableEq, Repr

/-- What the bytes at a frame start are. -/
inductive Decoded where
  /-- a whole frame, and the bytes after it -/
  | instr (i : Instr) (rest : List Byte)
  /-- the frame's last byte has not arrived (spec/20_memory.md R56) -/
  | incomplete
  /-- the opcode byte spells no command (R90), and the bytes after it -/
  | illegal (op : Byte) (rest : List Byte)
  deriving DecidableEq, Repr

/-- The opcode selects the format and the format fixes the header (R82, R89). Opcodes `0x00` and `0x06` to `0xff` spell
no command (R90). The meaning of these bytes does not depend on the engine's state (R91). -/
def decodeHeader : List Byte → HeaderResult
  | [] => .incomplete
  | op :: bs =>
    if op = 0x01#8 then
      match bs with
      | nn :: rest => .header (.init nn) rest
      | _ => .incomplete
    else if op = 0x02#8 then
      match bs with
      | nn :: kk :: rest => .header (.initMac nn kk) rest
      | _ => .incomplete
    else if op = 0x03#8 then
      match bs with
      | nn :: kk :: sl :: il :: rest => .header (.initKdf nn kk sl il) rest
      | _ => .incomplete
    else if op = 0x04#8 then
      match bs with
      | l0 :: l1 :: l2 :: l3 :: l4 :: l5 :: l6 :: l7 :: rest =>
        .header (.absorb (le64 [l0, l1, l2, l3, l4, l5, l6, l7])) rest
      | _ => .incomplete
    else if op = 0x05#8 then
      match bs with
      | rl :: rest => .header (.finish rl) rest
      | _ => .incomplete
    else .illegal op bs

/-- The first k bytes and the rest, or none while fewer than k have arrived. -/
def splitPayload (k : Nat) (bs : List Byte) : Option (List Byte × List Byte) :=
  if bs.length < k then none else some (bs.take k, bs.drop k)

/-- The payload strings after a header, in the order key, salt, info or data (R82, R88). With `awaited` false the frame
ends at its header and the strings are empty (R89). -/
def decodePayload (awaited : Bool) (h : Header) (rest : List Byte) : Decoded :=
  let want (k : Nat) : Nat := bif awaited then k else 0
  match h with
  | .init nn => .instr (.init nn) rest
  | .initMac nn kk =>
    match splitPayload (want kk.toNat) rest with
    | none => .incomplete
    | some (key, rest) => .instr (.initMac nn kk key) rest
  | .initKdf nn kk sl il =>
    match splitPayload (want kk.toNat) rest with
    | none => .incomplete
    | some (key, rest) =>
      match splitPayload (want sl.toNat) rest with
      | none => .incomplete
      | some (salt, rest) =>
        match splitPayload (want il.toNat) rest with
        | none => .incomplete
        | some (info, rest) => .instr (.initKdf nn kk sl il key salt info) rest
  | .absorb len =>
    match splitPayload (want len.toNat) rest with
    | none => .incomplete
    | some (data, rest) => .instr (.absorb len data) rest
  | .finish rl => .instr (.finish rl) rest

/-- The command a frame spells, whatever the engine's state (R91). A header out of range awaits no payload (R89). -/
def decode (bs : List Byte) : Decoded :=
  match decodeHeader bs with
  | .header h rest => decodePayload (headerInRange h) h rest
  | .incomplete => .incomplete
  | .illegal op rest => .illegal op rest

/-- The frame of a command (R82): opcode, header fields, payload strings. -/
def encode : Instr → List Byte
  | .init nn => [0x01#8, nn]
  | .initMac nn kk key => [0x02#8, nn, kk] ++ key
  | .initKdf nn kk sl il key salt info => [0x03#8, nn, kk, sl, il] ++ key ++ salt ++ info
  | .absorb len data => [0x04#8] ++ le64Bytes len ++ data
  | .finish rl => [0x05#8, rl]

/-- The bytes of a word of spec/opcode_table.json, bits 7:0 the first byte. -/
def tableBytes (nbits w : Nat) : List Byte :=
  (List.range ((nbits + 7) / 8)).map fun k => BitVec.ofNat 8 (w / 2 ^ (8 * k))

/-- `bs` followed by the zero bytes its frame still lacks: the header's first, then the payload's. -/
def completeFrame (bs : List Byte) : List Byte :=
  match decodeHeader (bs ++ zeros (9 - bs.length)) with
  | .header h _ =>
    let total := headerLength h + (bif headerInRange h then payloadLength h else 0)
    bs ++ zeros (total - bs.length)
  | .incomplete => bs
  | .illegal _ _ => bs

/-- The command the decoder reads from a word of spec/opcode_table.json, every later bit of its frame zero. -/
def decodeTableWord (nbits w : Nat) : Option Instr :=
  match decode (completeFrame (tableBytes nbits w)) with
  | .instr i _ => some i
  | .incomplete => none
  | .illegal _ _ => none

end Sys2Proof
end

