-- ==== Sys2Proof/Machine/Fetch.lean ====
section
/-! DEFINITION. Taking the next frame from CS (spec/20_memory.md R55, R56; spec/30_encoding.md R81, R89, R90). -/

namespace Sys2Proof.Machine

/-- What the engine finds on CS. -/
inductive Fetched where
  /-- phase FAULT: the bytes are discarded without being parsed (spec/60_exceptions.md R249) -/
  | ignored (s : State)
  /-- no complete frame has arrived (spec/20_memory.md R56) -/
  | waiting
  /-- a byte at a frame start that spells no command; the state is past it (R90) -/
  | illegal (s : State)
  /-- a command; the state is past its frame -/
  | command (i : Instr) (s : State)
  deriving DecidableEq, Repr

/-- Whether the frame goes on after its header (R89): not where a header field is out of range, nor where the command is
not allowed in the current phase. Of the commands a phase turns away only ABSORB has a payload. DESIGN CHOICE, log entries 4 and 17. -/
def payloadAwaited (ph : Phase) (h : Header) : Bool :=
  match h with
  | .init _ => headerInRange h
  | .initMac _ _ => headerInRange h
  | .initKdf _ _ _ _ => headerInRange h
  | .absorb _ => ph == .active
  | .finish _ => true

/-- Why there is no step: nothing has been sent, or a frame has begun and is not whole (R56). -/
def waitReason : List Byte → Fault
  | [] => .sequenceExhausted
  | _ :: _ => .incompleteFrame

/-- The next frame of CS in a phase that parses. -/
def fetchFrame (s : State) : Fetched :=
  match decodeHeader s.cs with
  | .incomplete => .waiting
  | .illegal _ rest => .illegal (setStream rest s)
  | .header h rest =>
    match decodePayload (payloadAwaited s.phase h) h rest with
    | .instr i rest => .command i (setStream rest s)
    | .incomplete => .waiting
    | .illegal _ rest => .illegal (setStream rest s)

/-- What the engine takes from CS next. -/
def fetch (s : State) : Fetched :=
  match s.phase with
  | .fault => .ignored (discardStream s)
  | .idle => fetchFrame s
  | .active => fetchFrame s
  | .consumed => fetchFrame s

/-- CS holding exactly the frame of a word of spec/opcode_table.json, every later bit of the frame zero (DESIGN CHOICE, log
entry 7). -/
def placeFrame (s : State) (nbits w : Nat) : State := setStream (completeFrame (tableBytes nbits w)) s

end Sys2Proof.Machine
end

