-- ==== Sys2Proof/Machine/Step.lean ====
section
/-! DEFINITION. One step: take the next frame from CS and execute it, one command being one atomic step
(spec/00_scope.md R8). -/

namespace Sys2Proof.Machine

/-- One step of the engine. In phase FAULT what is on CS is discarded (spec/60_exceptions.md R249); an opcode byte that
spells no command raises ILLEGAL_OPCODE (R247); with no complete frame there is no step (spec/20_memory.md R56). -/
def step (s : State) : Host.Outcome State Fault Refusal :=
  match fetch s with
  | .ignored s' => .next s'
  | .waiting => .fault (waitReason s.cs)
  | .illegal s' => .next (takeFault .illegalOpcode s')
  | .command i s' => exec i s'

/-- `s` with the frame of a word of spec/opcode_table.json on CS, where `step` takes its next command (DESIGN CHOICE,
log entry 7). -/
def State.withFetchWord (s : State) (nbits w : Nat) : State := placeFrame s nbits w

end Sys2Proof.Machine
end

