-- ==== Sys2Proof/Machine/SubBlocks.lean ====
section
/-! DEFINITION. The four sub-blocks (spec/00_scope.md R2), the operations each file of rules defines and what each does
(R9; spec/40_parameter_block_builder.md R120, spec/41_compression_function.md R150, spec/42_block_buffer_manager.md R180,
spec/43_finalizer.md R210). -/

namespace Sys2Proof.Machine

/-- The four responsibilities of the engine (R2). -/
inductive SubBlock where
  /-- `blake2b_parameter_block_builder` (spec/40_parameter_block_builder.md) -/
  | parameterBlockBuilder
  /-- `blake2b_compression_function` (spec/41_compression_function.md) -/
  | compressionFunction
  /-- `blake2b_block_buffer_manager` (spec/42_block_buffer_manager.md) -/
  | blockBufferManager
  /-- `blake2b_finalizer` (spec/43_finalizer.md) -/
  | finalizer
  deriving DecidableEq, Repr

/-- The internal operations with their operands: pure functions and state updates used inside command rules, without an
encoding of their own (R9). What each does is `runInternal`. -/
inductive InternalOp where
  /-- PBUILD (R121) -/
  | pBuild (nn kk : Byte) (salt info : List Byte)
  /-- H_INIT (R122) -/
  | hInit (pb : List Byte)
  /-- KEYBLOCK (R123) -/
  | keyBlock (key : List Byte)
  /-- CONSTRUCT (R124) -/
  | construct (nn kk sl il : Byte) (key salt info : List Byte)
  /-- G (R151) -/
  | mixG (v : Vector Word 16) (q : Quad) (x y : Word)
  /-- ROUND (R153) -/
  | round (v m : Vector Word 16) (r : Fin 12)
  /-- F (R154) -/
  | compressF (h : Vector Word 8) (block : List Byte) (t0 t1 f0 f1 : Word)
  /-- CTR_ADD (R181) -/
  | ctrAdd (k : Nat)
  /-- COMPRESS_FULL (R182) -/
  | compressFull
  /-- PUSH_BYTE (R183) -/
  | pushByte (b : Byte)
  /-- ABSORB_BODY (R184) -/
  | absorbBody (data : List Byte)
  /-- PAD (R211) -/
  | pad
  /-- SERIALIZE (R212) -/
  | serialize (h : Vector Word 8) (len : Nat)
  deriving DecidableEq, Repr

/-- What an internal operation gives: a value where it is a pure function, the next state where it updates the state. -/
inductive Result where
  | bytes (bs : List Byte)
  | chainingValue (h : Vector Word 8)
  | workingVector (v : Vector Word 16)
  | state (t : State)
  deriving DecidableEq, Repr

/-- The internal operation on the engine's state, each by its one definition, the one the commands' meanings call. -/
def runInternal (op : InternalOp) (s : State) : Result :=
  match op with
  | .pBuild nn kk salt info => .bytes (Sys2Proof.Machine.pBuild nn kk salt info)
  | .hInit pb => .chainingValue (Sys2Proof.Machine.hInit pb)
  | .keyBlock key => .bytes (Sys2Proof.Machine.keyBlock key)
  | .construct nn kk sl il key salt info =>
    .state (Sys2Proof.Machine.construct nn kk sl il key salt info s)
  | .mixG v q x y => .workingVector (Sys2Proof.Machine.mixG v q x y)
  | .round v m r => .workingVector (Sys2Proof.Machine.round m v r)
  | .compressF h block t0 t1 f0 f1 =>
    .chainingValue (Sys2Proof.Machine.compressF h block t0 t1 f0 f1)
  | .ctrAdd k => .state (Sys2Proof.Machine.ctrAdd k s)
  | .compressFull => .state (Sys2Proof.Machine.compressFull s)
  | .pushByte b => .state (Sys2Proof.Machine.pushByte s b)
  | .absorbBody data => .state (Sys2Proof.Machine.absorbBody data s)
  | .pad => .state (Sys2Proof.Machine.pad s)
  | .serialize h len => .bytes (Sys2Proof.Machine.serialize h len)

/-- An operation a rule defines: a command or a micro-operation. -/
inductive Operation where
  | command (i : Instr)
  | internal (op : InternalOp)
  deriving DecidableEq, Repr

/-- The sub-block whose file defines a command. -/
def commandSubBlock : Instr → SubBlock
  | .init _ => .parameterBlockBuilder
  | .initMac _ _ _ => .parameterBlockBuilder
  | .initKdf _ _ _ _ _ _ _ => .parameterBlockBuilder
  | .absorb _ _ => .blockBufferManager
  | .finish _ => .finalizer

/-- The sub-block whose file defines a micro-operation. -/
def internalSubBlock : InternalOp → SubBlock
  | .pBuild _ _ _ _ => .parameterBlockBuilder
  | .hInit _ => .parameterBlockBuilder
  | .keyBlock _ => .parameterBlockBuilder
  | .construct _ _ _ _ _ _ _ => .parameterBlockBuilder
  | .mixG _ _ _ _ => .compressionFunction
  | .round _ _ _ => .compressionFunction
  | .compressF _ _ _ _ _ _ => .compressionFunction
  | .ctrAdd _ => .blockBufferManager
  | .compressFull => .blockBufferManager
  | .pushByte _ => .blockBufferManager
  | .absorbBody _ => .blockBufferManager
  | .pad => .finalizer
  | .serialize _ _ => .finalizer

/-- The sub-block an operation belongs to. -/
def subBlockOf : Operation → SubBlock
  | .command i => commandSubBlock i
  | .internal op => internalSubBlock op

/-- The command whose frame names an operation on CS: a command is its own, and a micro-operation has no encoding (R9;
spec/30_encoding.md R108 names the commands that have the effect of one). -/
def hostCommand : Operation → Option Instr
  | .command i => some i
  | .internal _ => none

end Sys2Proof.Machine
end

