-- ==== Sys2Proof/Safety.lean ====
section
/-! DEFINITION. The terms the claims use: what a run is and when it has gone wrong (spec/00_scope.md R10,
spec/60_exceptions.md R250, spec/70_reset_and_hazards.md R298), the invariant of the engine's state (spec/10_state.md R25,
R29, R38 to R42, R49), what the host can observe, which parts of the state are unspecified, F's schedule as the spec
tables it, and the hash a transaction computes, written without buffer, counter register or lifecycle. -/

namespace Sys2Proof.Safety

open Sys2Proof.Machine

/-- A finite command sequence executed in order (R10), stopping where a command has no next state. -/
def runCommands : List Instr → State → Host.Outcome State Fault Refusal
  | [], s => .next s
  | i :: is, s =>
    match exec i s with
    | .next s' => runCommands is s'
    | .fault r => .fault r
    | .refused r => .refused r

/-- How an outcome is classed (spec/60_exceptions.md R265), where the state it is an outcome of is known. -/
inductive Verdict where
  /-- a next state, no fault -/
  | next (t : State)
  /-- the engine's fault of that cause: "FAULT, c" of the transition table (R264), never a successful end (R250) -/
  | fault (c : Cause)
  /-- "FAULT (ignored)": a state already faulted -/
  | ignored
  /-- a stuck agent with no step: a frame has begun and has not arrived whole (spec/20_memory.md R56) -/
  | stuck
  /-- no step because no command is left (R10) -/
  | ended
  /-- a refusal; there are none at the command level -/
  | refused
  deriving DecidableEq, Repr

/-- The class of an outcome of a command or a step at `s` (R265). The engine's fault is a next state in phase FAULT
(log entry 3); the rule's classes are told apart here. -/
def classify (s : State) : Host.Outcome State Fault Refusal → Verdict
  | .next t =>
    if s.phase = .fault then .ignored
    else if t.phase = .fault then .fault t.cause
    else .next t
  | .fault .incompleteFrame => .stuck
  | .fault .sequenceExhausted => .ended
  | .refused _ => .refused

/-- At most k steps, stopping where there is no step. -/
def drain : Nat → State → State
  | 0, s => s
  | k + 1, s =>
    match step s with
    | .next t => drain k t
    | .fault _ => s
    | .refused _ => s

/-- Where a run on the bytes now on CS comes to rest, the host sending nothing more. A step takes at least one byte or, in
phase FAULT, discards them all, so it needs no more steps than there are bytes. -/
def runToRest (s : State) : State := drain s.cs.length s

/-- A run from reset (R10): the host sends those bytes and nothing else. -/
def runFromReset (bs : List Byte) : State := runToRest (hostSend bs State.reset)

/-- The host's command sequence is exhausted (spec/70_reset_and_hazards.md R298): every byte sent belongs to a completed
command or, in phase FAULT, has been discarded. At the command level, where commands come whole, CS is always empty. -/
def Ended (s : State) : Prop := s.cs = []

/-- "a run whose last frame is incomplete has not ended, it is stuck" (R298, spec/20_memory.md R56). -/
def Stuck (s : State) : Prop := step s = .fault .incompleteFrame

/-- A successful run's final state (R298, R10, R250): the run has ended, in phase IDLE, ACTIVE or CONSUMED. -/
def Successful (s : State) : Prop := Ended s ∧ s.phase ≠ .fault

/-- A completed set of transactions (R298): the run has ended, in phase IDLE or CONSUMED. -/
def Completed (s : State) : Prop := Ended s ∧ (s.phase = .idle ∨ s.phase = .consumed)

/-- What a run is judged by (R10): the bytes on DS, the final `phase` and the final `cause`. -/
structure Observation where
  ds : List Byte
  phase : Phase
  cause : Cause
  deriving DecidableEq, Repr

/-- What the host can observe of a state: DS and STATUS (R31, R47). -/
def observe (s : State) : Observation := ⟨s.ds, s.phase, s.cause⟩

/-- A phase in which the registers hold an instance (R28). -/
def hasInstance (s : State) : Prop := s.phase = .active ∨ s.phase = .consumed

/-- The invariant of every state a run reaches. -/
structure Inv (s : State) : Prop where
  /-- the buffer's cells are in their one form, no index above 127 (spec/20_memory.md R51) -/
  bufWf : s.buf.wf = true
  /-- `cause` is NONE exactly when `phase` is not FAULT (R29) -/
  causeIffFault : s.cause ≠ .noFault ↔ s.phase = .fault
  /-- the cells that make up the buffer have been written (R25) -/
  prefixWritten : hasInstance s → ∀ a, a < s.n.val → (lookupCell s.buf a).isSome = true
  /-- `f[0]` is 0 before FINISH and all-ones after it (R39) -/
  lastBlockFlag : (s.phase = .active → s.f0 = 0) ∧ (s.phase = .consumed → s.f0 = Word.allOnes)
  /-- `f[1]` is always 0 (R40) -/
  treeFlag : hasInstance s → s.f1 = 0
  /-- `output_length` is in `[1,64]` (R41) -/
  outputLengthRange : hasInstance s → 1 ≤ s.outputLength.toNat ∧ s.outputLength.toNat ≤ 64
  /-- before FINISH the counter is a multiple of 128 (R42) -/
  counterAligned : s.phase = .active → 128 ∣ counter s
  /-- after FINISH the buffer is the padded last block (R49) -/
  consumedFull : s.phase = .consumed → s.n.val = 128

/-- Two states that differ in unspecified parts only: the same streams, `phase` and `cause`; in phase ACTIVE the same
registers and the same buffer content `buf[0..n]`. The registers outside phase ACTIVE and the cells at index `n` and
above are unspecified or unobservable (R25, R46, R49; spec/93_implementation_defined.md U1, U2, U3). -/
structure AgreeOnSpecified (s s' : State) : Prop where
  cs : s.cs = s'.cs
  ds : s.ds = s'.ds
  phase : s.phase = s'.phase
  cause : s.cause = s'.cause
  activeRegisters : s.phase = .active →
    s.h = s'.h ∧ s.t0 = s'.t0 ∧ s.t1 = s'.t1 ∧ s.f0 = s'.f0 ∧ s.f1 = s'.f1 ∧ s.n = s'.n ∧
      s.outputLength = s'.outputLength
  activeBuffer : s.phase = .active → bufPrefix s.buf s.n.val = bufPrefix s'.buf s.n.val

/-- The low and the high half of a 128-bit byte count (spec/10_state.md R22). -/
def countLow (total : Nat) : Word := BitVec.ofNat 64 total

/-- See `countLow`. -/
def countHigh (total : Nat) : Word := BitVec.ofNat 64 (total / 2 ^ 64)

/-- The chaining value after the first k blocks of 128 bytes of `input`, `done` bytes having been compressed before, with
the flags f (spec/42_block_buffer_manager.md R189: each block is compressed with the count that includes it). -/
def chainBlocks (f0 f1 : Word) : Nat → Vector Word 8 → Nat → List Byte → Vector Word 8
  | 0, h, _, _ => h
  | k + 1, h, done, input =>
    chainBlocks f0 f1 k
      (compressF h (input.take 128) (countLow (done + 128)) (countHigh (done + 128)) f0 f1)
      (done + 128) (input.drop 128)

/-- The working-vector indices of sub-step i, row by row as spec/30_encoding.md R103 tables them. -/
def quadTable : Vector (Fin 16 × Fin 16 × Fin 16 × Fin 16) 8 :=
  #v[(0, 4, 8, 12), (1, 5, 9, 13), (2, 6, 10, 14), (3, 7, 11, 15),
    (0, 5, 10, 15), (1, 6, 11, 12), (2, 7, 8, 13), (3, 4, 9, 14)]

/-- The indices of the message words `(m_x, m_y)` of sub-step i of round r, row by row as spec/30_encoding.md R106 tables
them. -/
def scheduleTable : Vector (Vector (Fin 16 × Fin 16) 8) 12 :=
  #v[#v[(0, 1), (2, 3), (4, 5), (6, 7), (8, 9), (10, 11), (12, 13), (14, 15)],
    #v[(14, 10), (4, 8), (9, 15), (13, 6), (1, 12), (0, 2), (11, 7), (5, 3)],
    #v[(11, 8), (12, 0), (5, 2), (15, 13), (10, 14), (3, 6), (7, 1), (9, 4)],
    #v[(7, 9), (3, 1), (13, 12), (11, 14), (2, 6), (5, 10), (4, 0), (15, 8)],
    #v[(9, 0), (5, 7), (2, 4), (10, 15), (14, 1), (11, 12), (6, 8), (3, 13)],
    #v[(2, 12), (6, 10), (0, 11), (8, 3), (4, 13), (7, 5), (15, 14), (1, 9)],
    #v[(12, 5), (1, 15), (14, 13), (4, 10), (0, 7), (6, 3), (9, 2), (8, 11)],
    #v[(13, 11), (7, 14), (12, 1), (3, 9), (5, 0), (15, 4), (8, 6), (2, 10)],
    #v[(6, 15), (14, 9), (11, 3), (0, 8), (12, 2), (13, 7), (1, 4), (10, 5)],
    #v[(10, 2), (8, 4), (7, 6), (1, 5), (15, 11), (9, 14), (3, 12), (13, 0)],
    #v[(0, 1), (2, 3), (4, 5), (6, 7), (8, 9), (10, 11), (12, 13), (14, 15)],
    #v[(14, 10), (4, 8), (9, 15), (13, 6), (1, 12), (0, 2), (11, 7), (5, 3)]]

/-- How many blocks of an input of that many bytes are followed by a further byte (R189, R190). -/
def fullBlocks (len : Nat) : Nat := (len - 1) / 128

/-- The bytes a keyed construction puts before the message (spec/40_parameter_block_builder.md R123, R131). -/
def keyedInput (key message : List Byte) : List Byte :=
  (if key = [] then [] else keyBlock key) ++ message

/-- The digest of a message under a parameter block (spec/00_scope.md R3, spec/40_parameter_block_builder.md R131,
spec/43_finalizer.md R213, R217): every started block but the last compressed with f = (0, 0), the last one padded with
zero bytes and compressed with the total count and `f[0]` all-ones, the first `nn` bytes of the result. -/
def hash (nn : Byte) (key salt info message : List Byte) : List Byte :=
  let input := keyedInput key message
  let k := fullBlocks input.length
  let h := chainBlocks 0 0 k (hInit (pBuild nn (BitVec.ofNat 8 key.length) salt info)) 0 input
  let last := input.drop (128 * k)
  serialize
    (compressF h (last ++ zeros (128 - last.length)) (countLow input.length) (countHigh input.length)
      Word.allOnes 0)
    nn.toNat

/-- ABSORB of a byte string shorter than 2^64, its length field computed (spec/30_encoding.md R107). -/
def absorbOf (data : List Byte) : Instr := .absorb (BitVec.ofNat 64 data.length) data

/-- INIT_KDF of three strings, their length fields computed (spec/30_encoding.md R107). -/
def initKdfOf (nn : Byte) (key salt info : List Byte) : Instr :=
  .initKdf nn (BitVec.ofNat 8 key.length) (BitVec.ofNat 8 salt.length) (BitVec.ofNat 8 info.length)
    key salt info

end Sys2Proof.Safety
end

