-- ==== Sys2Proof/Certificates/Slice0/Obligations.lean ====
section
/-! DEFINITION. The statements for the provers, each from the numbered rules of spec/ its docstring names. -/

open Sys2Proof Sys2Proof.Machine Sys2Proof.Safety

/-- spec/70_reset_and_hazards.md section 1: reset, from any state, leaves `phase` IDLE, `cause` NONE, STATUS `0x00`, the
frame parser at frame start, DS empty. That CS is emptied, whole frames not yet taken included, is the model's choice (log
entry 21), and so is that no buffer cell counts as written (log entry 2); nothing is said of the registers R46 leaves
unspecified. -/
def Obligations.ResetLeavesTheIdleEngine : Prop :=
  ∀ s : State,
    (hostReset s).phase = .idle ∧ (hostReset s).cause = .noFault ∧ status (hostReset s) = 0x00#8 ∧
      (hostReset s).cs = [] ∧ (hostReset s).ds = [] ∧ (hostReset s).buf = []

/-- The reset state meets the invariant that every step keeps, whatever the free values of R46 are (log entries 1, 2). -/
def Obligations.ResetMeetsTheInvariant : Prop := Inv State.reset

/-- When the bytes on CS decode to a command, in a phase that parses, the command is well formed and the step is `exec` of
it on the state past its frame. An ABSORB that the phase turns away ends at its 9-byte header, whether its data has arrived
or not (R89): none of it is awaited or taken from CS, and that the command executes with empty data is the model's reading
(log entry 17). -/
def Obligations.StepRunsTheDecodedCommand : Prop :=
  ∀ s : State, s.phase ≠ .fault →
    (∀ i rest, decode s.cs = .instr i rest →
      i.WellFormed = true ∧
      ((∀ len data, i ≠ .absorb len data) → step s = exec i { s with cs := rest }) ∧
      (∀ len data, i = .absorb len data → s.phase = .active → step s = exec i { s with cs := rest })) ∧
    (∀ len rest, decodeHeader s.cs = .header (.absorb len) rest → s.phase ≠ .active →
      step s = exec (.absorb len []) { s with cs := rest } ∧ rest = s.cs.drop 9)

/-- Frames of spec/95_test_vectors.md V-D, byte for byte, one or more of each command. -/
def Obligations.FramesOfTheSpecDecode : Prop :=
  decode [0x01#8, 0x40#8] = .instr (.init 0x40#8) [] ∧
  decode [0x02#8, 0x20#8, 0x03#8, 0x6b#8, 0x65#8, 0x79#8] =
    .instr (.initMac 0x20#8 0x03#8 [0x6b#8, 0x65#8, 0x79#8]) [] ∧
  decode [0x03#8, 0x40#8, 0x00#8, 0x00#8, 0x00#8] = .instr (.initKdf 0x40#8 0 0 0 [] [] []) [] ∧
  decode [0x04#8, 0x03#8, 0#8, 0#8, 0#8, 0#8, 0#8, 0#8, 0#8, 0x61#8, 0x62#8, 0x63#8] =
    .instr (.absorb 3#64 [0x61#8, 0x62#8, 0x63#8]) [] ∧
  decode [0x05#8, 0x40#8] = .instr (.finish 0x40#8) [] ∧
  decode [0x06#8] = .illegal 0x06#8 []

/-- R82 to R89: the frame of every well-formed command, whatever follows it on the stream, decodes to that command and
leaves what follows. -/
def Obligations.DecodeOfEncodedCommand : Prop :=
  ∀ (i : Instr) (rest : List Byte), i.WellFormed = true → decode (encode i ++ rest) = .instr i rest

/-- The other direction: bytes that decode to a command are its frame and what follows, so every frame has one
meaning. -/
def Obligations.DecodedBytesAreTheFrame : Prop :=
  ∀ (bs : List Byte) (i : Instr) (rest : List Byte),
    decode bs = .instr i rest → i.WellFormed = true ∧ bs = encode i ++ rest

/-- R247, R90: a byte at a frame start that is not `0x01` to `0x05` raises ILLEGAL_OPCODE in every phase but FAULT; no
other first byte raises it. -/
def Obligations.IllegalOpcodeFaults : Prop :=
  ∀ (s : State) (b : Byte) (rest : List Byte),
    s.phase ≠ .fault → s.cs = b :: rest →
      ((b.toNat < 1 ∨ 5 < b.toNat) →
        step s = .next { s with cs := rest, phase := .fault, cause := .illegalOpcode }) ∧
      (1 ≤ b.toNat → b.toNat ≤ 5 → s.cause ≠ .illegalOpcode →
        ∀ t, step s = .next t → t.cause ≠ .illegalOpcode)

/-- R56, R89: while a frame has not arrived whole the engine has no step. In a phase that turns ABSORB away its frame is
whole with its 9-byte header. That a header fault waits for the last header byte is the model's reading of R89 (log
entry 4), and the two reasons `incompleteFrame` and, for no byte at all, `sequenceExhausted` are its way of having no step
(log entry 5). -/
def Obligations.IncompleteFrameHasNoStep : Prop :=
  ∀ (s : State) (i : Instr) (k : Nat),
    s.phase ≠ .fault → i.WellFormed = true → k < (encode i).length → s.cs = (encode i).take k →
      ((∀ len data, i ≠ .absorb len data) ∨ s.phase = .active ∨ k < 9) →
        step s = .fault (if k = 0 then .sequenceExhausted else .incompleteFrame)

/-- The frame layer is transport (R80): on a stream of whole frames the engine takes one step a frame and does what the
commands do, executed in order; if none of them faults it has taken exactly those frames. The states are compared without
CS, which a faulted engine discards (R249; when it does so is the model's choice, log entry 6). -/
def Obligations.StreamOfFramesRunsAsCommands : Prop :=
  ∀ (is : List Instr) (rest : List Byte) (s : State),
    (∀ i ∈ is, i.WellFormed = true) → s.cs = is.flatMap encode ++ rest →
      ∃ t u, Host.Core.run Sys2Proof.core is.length s = .next t ∧ runCommands is s = .next u ∧
        { t with cs := [] } = { u with cs := [] } ∧ (u.phase ≠ .fault → t.cs = rest)

/-- R249: in phase FAULT every command is ignored, bytes on CS are discarded without being parsed, whether they arrive or
are there already, and no number of steps changes anything else: `cause` keeps the first fault's code. That a step empties
CS at once is the model's choice (log entry 6). -/
def Obligations.FaultIsSticky : Prop :=
  ∀ s : State, s.phase = .fault →
    (∀ i, exec i s = .next s) ∧ (∀ bs, hostSend bs s = s) ∧
    (∀ k, 0 < k → Host.Core.run Sys2Proof.core k s = .next { s with cs := [] })

/-- R125: INIT with `nn` in range writes exactly the registers the rule lists, in any phase but FAULT; out of range it
raises PARAM_RANGE; in FAULT it is ignored; its frame is `0x01, nn`. -/
def Obligations.InitEffect : Prop :=
  ∀ (s : State) (nn : Byte),
    encode (.init nn) = [0x01#8, nn] ∧
    (s.phase ≠ .fault → 1 ≤ nn.toNat → nn.toNat ≤ 64 →
      exec (.init nn) s = .next { s with
        h := #v[iv[0] ^^^ (0x01010000#64 + nn.setWidth 64), iv[1], iv[2], iv[3], iv[4], iv[5], iv[6], iv[7]]
        t0 := 0, t1 := 0, f0 := 0, f1 := 0, n := 0
        outputLength := BitVec.ofNat 7 nn.toNat
        phase := .active }) ∧
    (s.phase ≠ .fault → (nn.toNat = 0 ∨ 64 < nn.toNat) →
      exec (.init nn) s = .next { s with phase := .fault, cause := .paramRange }) ∧
    (s.phase = .fault → exec (.init nn) s = .next s)

/-- R126: INIT_MAC with operands in range and a non-empty key leaves the padded key block in the buffer, uncompressed and
uncounted; with an empty key its effect is that of INIT. `cause` and the streams are unchanged. -/
def Obligations.InitMacEffect : Prop :=
  ∀ (s : State) (nn : Byte) (key : List Byte),
    s.phase ≠ .fault → 1 ≤ nn.toNat → nn.toNat ≤ 64 → key.length ≤ 64 →
      (0 < key.length →
        ∃ t, exec (.initMac nn (BitVec.ofNat 8 key.length) key) s = .next t ∧
          t.h = #v[iv[0] ^^^ (0x01010000#64 + (BitVec.ofNat 64 key.length <<< 8) + nn.setWidth 64),
            iv[1], iv[2], iv[3], iv[4], iv[5], iv[6], iv[7]] ∧
          t.t0 = 0 ∧ t.t1 = 0 ∧ t.f0 = 0 ∧ t.f1 = 0 ∧ t.n.val = 128 ∧
          wholeBlock t.buf = key ++ zeros (128 - key.length) ∧
          t.outputLength = BitVec.ofNat 7 nn.toNat ∧ t.phase = .active ∧
          t.cause = s.cause ∧ t.cs = s.cs ∧ t.ds = s.ds) ∧
      (key.length = 0 →
        exec (.initMac nn (BitVec.ofNat 8 key.length) key) s = exec (.init nn) s ∧
        ∃ t, exec (.initMac nn (BitVec.ofNat 8 key.length) key) s = .next t ∧ t.n.val = 0 ∧
          t.buf = s.buf ∧ t.phase = .active)

/-- R127: INIT_KDF with operands in range; salt and info enter `h` only, the key enters the buffer. -/
def Obligations.InitKdfEffect : Prop :=
  ∀ (s : State) (nn : Byte) (key salt info : List Byte),
    s.phase ≠ .fault → 1 ≤ nn.toNat → nn.toNat ≤ 64 → key.length ≤ 64 → salt.length ≤ 16 →
    info.length ≤ 16 →
      ∃ t, exec (initKdfOf nn key salt info) s = .next t ∧
        t.h = #v[iv[0] ^^^ (0x01010000#64 + (BitVec.ofNat 64 key.length <<< 8) + nn.setWidth 64),
          iv[1], iv[2], iv[3],
          iv[4] ^^^ le64 ((salt ++ zeros (16 - salt.length)).take 8),
          iv[5] ^^^ le64 ((salt ++ zeros (16 - salt.length)).drop 8),
          iv[6] ^^^ le64 ((info ++ zeros (16 - info.length)).take 8),
          iv[7] ^^^ le64 ((info ++ zeros (16 - info.length)).drop 8)] ∧
        t.t0 = 0 ∧ t.t1 = 0 ∧ t.f0 = 0 ∧ t.f1 = 0 ∧
        t.outputLength = BitVec.ofNat 7 nn.toNat ∧ t.phase = .active ∧
        t.cause = s.cause ∧ t.cs = s.cs ∧ t.ds = s.ds ∧
        (0 < key.length → t.n.val = 128 ∧ wholeBlock t.buf = key ++ zeros (128 - key.length)) ∧
        (key.length = 0 → t.n.val = 0 ∧ t.buf = s.buf)

/-- R242: a construction command raises PARAM_RANGE in IDLE, ACTIVE and CONSUMED alike exactly when an operand is out of
range, and records nothing but the code. -/
def Obligations.ParamRangeFaults : Prop :=
  ∀ (s : State) (nn kk sl il : Byte) (key salt info : List Byte), s.phase ≠ .fault →
    (exec (.init nn) s = .next { s with phase := .fault, cause := .paramRange } ↔
      (nn.toNat < 1 ∨ 64 < nn.toNat)) ∧
    (exec (.initMac nn kk key) s = .next { s with phase := .fault, cause := .paramRange } ↔
      (nn.toNat < 1 ∨ 64 < nn.toNat ∨ 64 < kk.toNat)) ∧
    (exec (.initKdf nn kk sl il key salt info) s =
        .next { s with phase := .fault, cause := .paramRange } ↔
      (nn.toNat < 1 ∨ 64 < nn.toNat ∨ 64 < kk.toNat ∨ 16 < sl.toNat ∨ 16 < il.toNat))

/-- The frame of INIT, INIT_MAC and INIT_KDF: the streams are unchanged, `cause` too unless a fault is taken, and without a
key every byte of the buffer is unchanged (R124: `buf` is written by the key block alone). -/
def Obligations.ConstructionFrame : Prop :=
  ∀ (i : Instr) (s t : State), i.isConstruction = true → exec i s = .next t →
    t.cs = s.cs ∧ t.ds = s.ds ∧ (t.phase ≠ .fault → t.cause = s.cause) ∧
    ((∃ nn, i = .init nn) ∨ (∃ nn key, i = .initMac nn 0 key) ∨
        (∃ nn sl il key salt info, i = .initKdf nn 0 sl il key salt info) →
      ∀ a, readByte t.buf a = readByte s.buf a)

/-- R129: a construction command that is accepted leaves nothing of the instance before it: from any two states, in any
phases but FAULT, it leaves the same registers and the same buffer content. -/
def Obligations.ReconstructionAbandonsTheInstance : Prop :=
  ∀ (i : Instr) (s s' t t' : State),
    i.isConstruction = true → i.WellFormed = true → s.phase ≠ .fault → s'.phase ≠ .fault →
    exec i s = .next t → exec i s' = .next t' → t.phase ≠ .fault →
      t.h = t'.h ∧ t.t0 = t'.t0 ∧ t.t1 = t'.t1 ∧ t.f0 = t'.f0 ∧ t.f1 = t'.f1 ∧ t.n = t'.n ∧
        t.outputLength = t'.outputLength ∧ t'.phase = .active ∧
        bufPrefix t.buf t.n.val = bufPrefix t'.buf t.n.val

/-- R189: what an ABSORB does in phase ACTIVE, in closed form: the compressions it performs, the bytes it leaves in the
buffer, the advance of the counter; nothing else changes. -/
def Obligations.AbsorbClosedForm : Prop :=
  ∀ (s : State) (len : Word) (data : List Byte), s.phase = .active →
    ∃ t, exec (.absorb len data) s = .next t ∧
      (s.n.val + data.length = 0 → t = s) ∧
      t.n.val = s.n.val + data.length - 128 * fullBlocks (s.n.val + data.length) ∧
      counter t = (counter s + 128 * fullBlocks (s.n.val + data.length)) % 2 ^ 128 ∧
      t.h = chainBlocks s.f0 s.f1 (fullBlocks (s.n.val + data.length)) s.h (counter s)
        (bufPrefix s.buf s.n.val ++ data) ∧
      bufPrefix t.buf t.n.val =
        (bufPrefix s.buf s.n.val ++ data).drop (128 * fullBlocks (s.n.val + data.length)) ∧
      t.f0 = s.f0 ∧ t.f1 = s.f1 ∧ t.outputLength = s.outputLength ∧ t.phase = .active ∧
      t.cause = s.cause ∧ t.cs = s.cs ∧ t.ds = s.ds

/-- The frame of ABSORB, in every phase: data byte j is stored at index `(n + j) mod 128` (R183), in phase ACTIVE only,
where it stays unless a later data byte of the same command takes its place (so the last 128 stay); every other byte of the
buffer is unchanged; while everything fits in the buffer no byte is compressed (R48, R183). -/
def Obligations.AbsorbFrame : Prop :=
  ∀ (s t : State) (len : Word) (data : List Byte), exec (.absorb len data) s = .next t →
    (∀ a : Fin 128, (s.phase = .active → ∀ j, j < data.length → (s.n.val + j) % 128 ≠ a.val) →
      readByte t.buf a = readByte s.buf a) ∧
    (s.phase = .active → ∀ j, j < data.length → data.length ≤ j + 128 →
      data[j]? = some (readByte t.buf (Fin.ofNat 128 (s.n.val + j)))) ∧
    t.f0 = s.f0 ∧ t.f1 = s.f1 ∧ t.outputLength = s.outputLength ∧ t.cs = s.cs ∧ t.ds = s.ds ∧
    (t.phase ≠ .fault → t.cause = s.cause ∧ t.phase = s.phase) ∧
    (s.n.val + data.length ≤ 128 → t.h = s.h ∧ t.t0 = s.t0 ∧ t.t1 = s.t1)

/-- R186: in phase ACTIVE, ABSORB a then ABSORB b leaves every register exactly as ABSORB (a ++ b) does. -/
def Obligations.ChunkingInvariance : Prop :=
  ∀ (s : State) (la lb lab : Word) (a b : List Byte), s.phase = .active →
    ∃ u t, exec (.absorb la a) s = .next u ∧ exec (.absorb lb b) u = .next t ∧
      exec (.absorb lab (a ++ b)) s = .next t

/-- R187: ABSORB of no bytes changes nothing in phase ACTIVE, and still faults in IDLE and CONSUMED. -/
def Obligations.EmptyAbsorb : Prop :=
  ∀ (s : State) (len : Word),
    (s.phase = .active → exec (.absorb len []) s = .next s) ∧
    (s.phase = .idle →
      exec (.absorb len []) s = .next { s with phase := .fault, cause := .noInstance }) ∧
    (s.phase = .consumed →
      exec (.absorb len []) s = .next { s with phase := .fault, cause := .useAfterFinish })

/-- R181: CTR_ADD adds to the 128-bit counter modulo 2^128 and writes `t[0]` and `t[1]` alone; where the counter is a
multiple of 128, counting a block carries out of the low word exactly when `t[0]` is ffffffffffffff80. -/
def Obligations.CounterAddition : Prop :=
  ∀ (s : State) (k : Nat), k ≤ 128 →
    counter (ctrAdd k s) = (counter s + k) % 2 ^ 128 ∧
    (ctrAdd k s).t0 = s.t0 + BitVec.ofNat 64 k ∧
    (ctrAdd k s).t1 = s.t1 + (if (ctrAdd k s).t0.toNat < k then 1 else 0) ∧
    ctrAdd k s = { s with t0 := (ctrAdd k s).t0, t1 := (ctrAdd k s).t1 } ∧
    (128 ∣ counter s → ((ctrAdd 128 s).t1 ≠ s.t1 ↔ s.t0 = 0xffffffffffffff80#64))

/-- R213: FINISH with `rl` equal to `output_length` in phase ACTIVE: the counter takes in the buffered bytes, the last-block
flag is set, the buffer is padded with zero bytes, F runs once more, the first `output_length` bytes of the result go out on
DS, and the instance is consumed. `f[1]`, `output_length`, `cause` and CS are unchanged. -/
def Obligations.FinishEffect : Prop :=
  ∀ (s : State) (rl : Byte), s.phase = .active → rl.toNat = s.outputLength.toNat →
    ∃ t, exec (.finish rl) s = .next t ∧
      counter t = (counter s + s.n.val) % 2 ^ 128 ∧
      t.f0 = Word.allOnes ∧ t.f1 = s.f1 ∧ t.n.val = 128 ∧
      (∀ a : Fin 128, readByte t.buf a = if a.val < s.n.val then readByte s.buf a else 0) ∧
      t.h = compressF s.h (bufPrefix s.buf s.n.val ++ zeros (128 - s.n.val)) t.t0 t.t1
        Word.allOnes s.f1 ∧
      t.ds = s.ds ++ serialize t.h s.outputLength.toNat ∧
      t.phase = .consumed ∧ t.outputLength = s.outputLength ∧ t.cause = s.cause ∧ t.cs = s.cs

/-- The frame of FINISH, in every phase and for every `rl`: the buffered bytes stay, and so do `f[1]`, `output_length` and
CS; a FINISH that does not consume the instance writes `phase` and `cause` alone. -/
def Obligations.FinishFrame : Prop :=
  ∀ (s t : State) (rl : Byte), exec (.finish rl) s = .next t →
    (∀ a : Fin 128, a.val < s.n.val → readByte t.buf a = readByte s.buf a) ∧
    t.f1 = s.f1 ∧ t.outputLength = s.outputLength ∧ t.cs = s.cs ∧
    (t.phase ≠ .fault → t.cause = s.cause) ∧
    (t.phase ≠ .consumed → t = { s with phase := t.phase, cause := t.cause })

/-- R31 with the codes of R28 and R241: in every state `STATUS[1:0]` is the code of `phase`, `STATUS[3:2]` is 0 and
`STATUS[7:4]` is the code of `cause`. -/
def Obligations.StatusShowsPhaseAndCause : Prop :=
  ∀ s : State,
    (status s).extractLsb' 0 2 =
      (match s.phase with
        | .idle => 0#2
        | .active => 1#2
        | .consumed => 2#2
        | .fault => 3#2) ∧
    (status s).extractLsb' 2 2 = 0#2 ∧
    (status s).extractLsb' 4 4 =
      (match s.cause with
        | .noFault => 0#4
        | .paramRange => 1#4
        | .outlenMismatch => 2#4
        | .useAfterFinish => 3#4
        | .noInstance => 4#4
        | .illegalOpcode => 5#4)

/-- R243, R244, R245: FINISH with another `rl`, ABSORB or FINISH after FINISH, ABSORB or FINISH before construction: each
raises its cause, whatever the other operands, and writes nothing else; no digest byte is emitted. -/
def Obligations.MisuseFaults : Prop :=
  ∀ (s : State) (rl : Byte) (len : Word) (data : List Byte),
    (s.phase = .active → rl.toNat ≠ s.outputLength.toNat →
      exec (.finish rl) s = .next { s with phase := .fault, cause := .outlenMismatch }) ∧
    (s.phase = .consumed →
      exec (.finish rl) s = .next { s with phase := .fault, cause := .useAfterFinish } ∧
      exec (.absorb len data) s = .next { s with phase := .fault, cause := .useAfterFinish }) ∧
    (s.phase = .idle →
      exec (.finish rl) s = .next { s with phase := .fault, cause := .noInstance } ∧
      exec (.absorb len data) s = .next { s with phase := .fault, cause := .noInstance })

/-- R264, the whole transition table: every command, in every phase and on any operands, has a next state, whose `phase`
and `cause` are the table's and whose digest bytes come in the one cell that emits them; a command in FAULT is ignored;
then the columns of illegal opcodes and of reset. -/
def Obligations.PhaseTransitionTable : Prop :=
  (∀ (s : State) (i : Instr), ∃ t, exec i s = .next t ∧
    (t.phase, t.cause) =
      match s.phase, i with
      | .fault, _ => (.fault, s.cause)
      | .idle, .absorb _ _ => (.fault, .noInstance)
      | .idle, .finish _ => (.fault, .noInstance)
      | .active, .absorb _ _ => (.active, s.cause)
      | .active, .finish rl =>
        if rl.toNat = s.outputLength.toNat then (.consumed, s.cause) else (.fault, .outlenMismatch)
      | .consumed, .absorb _ _ => (.fault, .useAfterFinish)
      | .consumed, .finish _ => (.fault, .useAfterFinish)
      | _, .init nn =>
        if 1 ≤ nn.toNat ∧ nn.toNat ≤ 64 then (.active, s.cause) else (.fault, .paramRange)
      | _, .initMac nn kk _ =>
        if 1 ≤ nn.toNat ∧ nn.toNat ≤ 64 ∧ kk.toNat ≤ 64 then (.active, s.cause)
        else (.fault, .paramRange)
      | _, .initKdf nn kk sl il _ _ _ =>
        if 1 ≤ nn.toNat ∧ nn.toNat ≤ 64 ∧ kk.toNat ≤ 64 ∧ sl.toNat ≤ 16 ∧ il.toNat ≤ 16 then
          (.active, s.cause)
        else (.fault, .paramRange)) ∧
  (∀ (s t : State) (i : Instr), exec i s = .next t →
    (s.phase = .fault → t = s) ∧
    t.ds = s.ds ++ if s.phase = .active ∧ t.phase = .consumed then serialize t.h s.outputLength.toNat
      else []) ∧
  (∀ (s : State) (b : Byte) (rest : List Byte), s.cs = b :: rest → (b.toNat < 1 ∨ 5 < b.toNat) →
    ∃ t, step s = .next t ∧
      (t.phase, t.cause) = if s.phase = .fault then (.fault, s.cause) else (.fault, .illegalOpcode)) ∧
  (∀ s : State, (hostReset s).phase = .idle ∧ (hostReset s).cause = .noFault)

/-- R253: whatever command or illegal opcode a step takes, the state at fault entry is the state before it plus `phase` and
`cause`; only CS, from which the frame was taken, differs besides. -/
def Obligations.FaultsArePrecise : Prop :=
  (∀ (i : Instr) (s t : State), s.phase ≠ .fault → exec i s = .next t → t.phase = .fault →
    t = { s with phase := .fault, cause := t.cause } ∧ t.cause ≠ .noFault) ∧
  (∀ s t : State, s.phase ≠ .fault → step s = .next t → t.phase = .fault →
    t = { s with phase := .fault, cause := t.cause, cs := t.cs } ∧ t.cause ≠ .noFault)

/-- R151: G on four distinct indices does its eight lines, each with the values the lines before it produced, and leaves
the twelve other words unchanged. -/
def Obligations.MixingSubStep : Prop :=
  ∀ (v : Vector Word 16) (a b c d : Fin 16) (x y : Word),
    a ≠ b → a ≠ c → a ≠ d → b ≠ c → b ≠ d → c ≠ d →
      ∀ a1 d1 c1 b1 a2 d2 c2 b2 : Word,
        a1 = v[a] + v[b] + x → d1 = rotr (v[d] ^^^ a1) 32 → c1 = v[c] + d1 →
        b1 = rotr (v[b] ^^^ c1) 24 → a2 = a1 + b1 + y → d2 = rotr (d1 ^^^ a2) 16 →
        c2 = c1 + d2 → b2 = rotr (b1 ^^^ c2) 63 →
          (mixG v ⟨a, b, c, d⟩ x y)[a] = a2 ∧ (mixG v ⟨a, b, c, d⟩ x y)[b] = b2 ∧
          (mixG v ⟨a, b, c, d⟩ x y)[c] = c2 ∧ (mixG v ⟨a, b, c, d⟩ x y)[d] = d2 ∧
          ∀ k : Fin 16, k ≠ a → k ≠ b → k ≠ c → k ≠ d →
            (mixG v ⟨a, b, c, d⟩ x y)[k] = v[k]

/-- R154: F from its parts as the spec tables them: the IV words (R100), the layout of the working vector at the start
(R98), the 96 sub-steps in order, sub-step (r, i) being G on the indices of R103 with the message words of R106, read from
the block (R97), and the feed-forward with the chaining value F was given. v is the sequence of working vectors, `v 0`
before the first sub-step and `v 96` after the last; what G does is `MixingSubStep`. -/
def Obligations.CompressionFollowsTheSchedule : Prop :=
  iv = #v[0x6a09e667f3bcc908#64, 0xbb67ae8584caa73b#64, 0x3c6ef372fe94f82b#64, 0xa54ff53a5f1d36f1#64,
    0x510e527fade682d1#64, 0x9b05688c2b3e6c1f#64, 0x1f83d9abfb41bd6b#64, 0x5be0cd19137e2179#64] ∧
  ∀ (h : Vector Word 8) (block : List Byte) (t0 t1 f0 f1 : Word) (v : Nat → Vector Word 16),
    v 0 = #v[h[0], h[1], h[2], h[3], h[4], h[5], h[6], h[7],
      0x6a09e667f3bcc908#64, 0xbb67ae8584caa73b#64, 0x3c6ef372fe94f82b#64, 0xa54ff53a5f1d36f1#64,
      0x510e527fade682d1#64 ^^^ t0, 0x9b05688c2b3e6c1f#64 ^^^ t1, 0x1f83d9abfb41bd6b#64 ^^^ f0,
      0x5be0cd19137e2179#64 ^^^ f1] →
    (∀ (r : Fin 12) (i : Fin 8) (a b c d x y : Fin 16),
      quadTable[i] = (a, b, c, d) → scheduleTable[r][i] = (x, y) →
        v (8 * r.val + i.val + 1) =
          mixG (v (8 * r.val + i.val)) ⟨a, b, c, d⟩ (le64 ((block.drop (8 * x.val)).take 8))
            (le64 ((block.drop (8 * y.val)).take 8))) →
    ∀ i : Fin 8, (compressF h block t0 t1 f0 f1)[i] = h[i] ^^^ (v 96)[i.val] ^^^ (v 96)[i.val + 8]

/-- R153: the four column applications of a round may be made in any order with the same result, and likewise the four
diagonal ones: any two of either kind commute. -/
def Obligations.ColumnsCommuteAndDiagonalsCommute : Prop :=
  ∀ (v m : Vector Word 16) (r : Fin 12) (i j : Fin 8),
    (i.val < 4 ∧ j.val < 4) ∨ (4 ≤ i.val ∧ 4 ≤ j.val) →
      subStep m r (subStep m r v i) j = subStep m r (subStep m r v j) i

/-- R14: bit i of `rotr(x, n)` is bit `(i + n) mod 64` of x, for 0 < n < 64. -/
def Obligations.RotationMovesBits : Prop :=
  ∀ (x : Word) (n i : Nat), 0 < n → n < 64 → i < 64 →
    (rotr x n).getLsbD i = x.getLsbD ((i + n) % 64)

/-- R15: `LE64` is the weighted sum of its bytes, `LE64_BYTES` the eight byte fields in order, and each undoes the
other. -/
def Obligations.LittleEndianConversion : Prop :=
  (∀ b0 b1 b2 b3 b4 b5 b6 b7 : Byte,
    (le64 [b0, b1, b2, b3, b4, b5, b6, b7]).toNat =
      b0.toNat + 2 ^ 8 * b1.toNat + 2 ^ 16 * b2.toNat + 2 ^ 24 * b3.toNat + 2 ^ 32 * b4.toNat +
        2 ^ 40 * b5.toNat + 2 ^ 48 * b6.toNat + 2 ^ 56 * b7.toNat ∧
    le64Bytes (le64 [b0, b1, b2, b3, b4, b5, b6, b7]) = [b0, b1, b2, b3, b4, b5, b6, b7]) ∧
  (∀ w : Word, le64 (le64Bytes w) = w ∧
    (le64Bytes w).length = 8 ∧
    ∀ k, k < 8 → (le64Bytes w)[k]? = some (w.extractLsb' (8 * k) 8))

/-- R92: the parameter block, offset by offset. -/
def Obligations.ParameterBlockLayout : Prop :=
  ∀ (nn kk : Byte) (salt info : List Byte), salt.length ≤ 16 → info.length ≤ 16 →
    (pBuild nn kk salt info).length = 64 ∧
    (pBuild nn kk salt info)[0]? = some nn ∧
    (pBuild nn kk salt info)[1]? = some kk ∧
    (pBuild nn kk salt info)[2]? = some 0x01#8 ∧
    (pBuild nn kk salt info)[3]? = some 0x01#8 ∧
    (∀ j, 4 ≤ j → j < 32 → (pBuild nn kk salt info)[j]? = some 0) ∧
    (∀ j, j < 16 → (pBuild nn kk salt info)[32 + j]? = some (salt.getD j 0)) ∧
    (∀ j, j < 16 → (pBuild nn kk salt info)[48 + j]? = some (info.getD j 0))

/-- R59: byte `buf[8·j + k]` is bits `[8k+7 : 8k]` of `m[j]`, and `m[j]` is the word read at `8·j` (R53). -/
def Obligations.MessageWordsOfTheBuffer : Prop :=
  ∀ (m : Memory) (j : Fin 16),
    (∀ k, k < 8 →
      (messageWords (wholeBlock m))[j].extractLsb' (8 * k) 8 =
        readByte m (Fin.ofNat 128 (8 * j.val + k))) ∧
    (messageWords (wholeBlock m))[j] = readWord m (Fin.ofNat 121 (8 * j.val))

/-- R99: digest byte `8i + k` is bits `[8k+7 : 8k]` of `h[i]`, and the digest is the first `output_length` of them. -/
def Obligations.DigestSerialisation : Prop :=
  ∀ (h : Vector Word 8) (len : Nat), len ≤ 64 →
    (serialize h len).length = len ∧
    ∀ (i : Fin 8) (k : Nat), k < 8 → 8 * i.val + k < len →
      (serialize h len)[8 * i.val + k]? = some (h[i].extractLsb' (8 * k) 8)

/-- Every step keeps the invariant, from every state that meets it: the buffer's form (R51), `cause` (R29), the written
prefix (R25; log entry 2), the flags (R39, R40), the digest length (R41), the counter (R42), the padded buffer after
FINISH (R49; log entry 14). -/
def Obligations.StepKeepsTheInvariant : Prop :=
  ∀ s t : State, Inv s → step s = .next t → Inv t

/-- R37, R57: DS only grows, and only by FINISH in phase ACTIVE with the right `rl`, which appends `output_length` bytes
and consumes the instance (of an `output_length` above 64, which no run reaches, nothing is said; log entry 19). -/
def Obligations.OnlyFinishEmits : Prop :=
  ∀ s t : State, step s = .next t →
    t.ds = s.ds ∨
      (s.phase = .active ∧ t.phase = .consumed ∧
        ∃ rl rest d, decode s.cs = .instr (.finish rl) rest ∧
          rl.toNat = s.outputLength.toNat ∧ t.ds = s.ds ++ d ∧
          (s.outputLength.toNat ≤ 64 → d.length = s.outputLength.toNat))

/-- The "written by" column of R46 and R47, over all commands: a command never touches CS, only construction writes
`output_length` and `f[1]`, only construction and FINISH write `f[0]`, only a fault writes `cause`, only FINISH writes
DS, and INIT writes no buffer cell. -/
def Obligations.WhichCommandWritesWhat : Prop :=
  ∀ (i : Instr) (s t : State), exec i s = .next t →
    t.cs = s.cs ∧
    (t.outputLength ≠ s.outputLength → i.isConstruction = true) ∧
    (t.f1 ≠ s.f1 → i.isConstruction = true) ∧
    (t.f0 ≠ s.f0 → i.isConstruction = true ∨ ∃ rl, i = .finish rl) ∧
    (t.cause ≠ s.cause → t.phase = .fault) ∧
    (t.ds ≠ s.ds → ∃ rl, i = .finish rl) ∧
    (t.buf ≠ s.buf → ∀ nn, i ≠ .init nn)

/-- R25, R46 and R49 as one isolation property: what is unspecified (the registers outside phase ACTIVE, the cells at index
`n` and above) never reaches DS, `phase`, `cause`, CS or a specified register: two states that agree on the rest step to
states that agree on the rest, or both have no step, for the same reason (log entry 5). -/
def Obligations.UnspecifiedStateNeverMatters : Prop :=
  ∀ s s' : State, AgreeOnSpecified s s' →
    (∃ t t', step s = .next t ∧ step s' = .next t' ∧ AgreeOnSpecified t t') ∨
      (∃ r, step s = .fault r ∧ step s' = .fault r)

/-- R3, R131, R185, R186, R213: from any state not in FAULT, a transaction (a construction command in range, any chunks of
the message, FINISH with `rl` = `nn`) runs to its end and appends to DS exactly the hash of the whole message under that
key, salt and info, however the message was cut. -/
def Obligations.TransactionEmitsTheHash : Prop :=
  ∀ (s : State) (c : Instr) (nn : Byte) (key salt info : List Byte) (chunks : List (List Byte)),
    s.phase ≠ .fault → 1 ≤ nn.toNat → nn.toNat ≤ 64 → key.length ≤ 64 → salt.length ≤ 16 →
    info.length ≤ 16 →
    ((c = .init nn ∧ key = [] ∧ salt = [] ∧ info = []) ∨
      (c = .initMac nn (BitVec.ofNat 8 key.length) key ∧ salt = [] ∧ info = []) ∨
      c = initKdfOf nn key salt info) →
      ∃ t, runCommands (c :: chunks.map absorbOf ++ [.finish nn]) s = .next t ∧
        t.ds = s.ds ++ hash nn key salt info chunks.flatten ∧
        t.phase = .consumed ∧ t.cause = s.cause

/-- R219: after a fault-free FINISH the counter is the number of bytes appended to the instance, the message bytes plus 128
if the key was not empty, modulo 2^128. -/
def Obligations.FinalCounter : Prop :=
  ∀ (s : State) (c : Instr) (nn : Byte) (key salt info : List Byte) (chunks : List (List Byte)),
    s.phase ≠ .fault → 1 ≤ nn.toNat → nn.toNat ≤ 64 → key.length ≤ 64 → salt.length ≤ 16 →
    info.length ≤ 16 →
    ((c = .init nn ∧ key = []) ∨ (c = .initMac nn (BitVec.ofNat 8 key.length) key) ∨
      c = initKdfOf nn key salt info) →
      ∃ t, runCommands (c :: chunks.map absorbOf ++ [.finish nn]) s = .next t ∧ t.phase = .consumed ∧
        counter t = (chunks.flatten.length + if key = [] then 0 else 128) % 2 ^ 128

/-- R210, and R120 and R180 with it, over steps: in a phase that parses, the byte at the frame start says whose command the
step executes. `0x05` is the finalizer's one host command FINISH, `0x04` the buffer manager's one, ABSORB, and `0x01` to
`0x03` are the parameter block builder's INIT, INIT_MAC and INIT_KDF; any other byte executes none and faults (R247). The
step takes that command's frame from CS (of an ABSORB the phase turns away, the 9-byte header: R89, with empty data by log
entry 17), and whatever stands on CS, only FINISH emits or consumes the instance and only construction writes
`output_length` and `f[1]`. A whole frame is always taken. -/
def Obligations.HostCommandsOfTheSubBlocks : Prop :=
  ∀ (s : State) (op : Byte) (bs : List Byte), s.phase ≠ .fault → s.cs = op :: bs →
    (∀ (i : Instr) (rest : List Byte), i.WellFormed = true → s.cs = encode i ++ rest →
      ∃ t, step s = .next t) ∧
    ∀ t, step s = .next t →
      ((op.toNat < 1 ∨ 5 < op.toNat) ∧ t = { s with cs := bs, phase := .fault, cause := .illegalOpcode } ∨
        ∃ (i : Instr) (rest : List Byte), exec i { s with cs := rest } = .next t ∧
          (s.cs = encode i ++ rest ∨
            ∃ len, i = .absorb len [] ∧ s.phase ≠ .active ∧ s.cs = 0x04#8 :: (le64Bytes len ++ rest)) ∧
          ((op = 0x05#8 ∧ subBlockOf (.command i) = .finalizer ∧ ∃ rl, i = .finish rl) ∨
            (op = 0x04#8 ∧ subBlockOf (.command i) = .blockBufferManager ∧
              ∃ len data, i = .absorb len data) ∨
            ((op = 0x01#8 ∨ op = 0x02#8 ∨ op = 0x03#8) ∧
              subBlockOf (.command i) = .parameterBlockBuilder ∧ i.isConstruction = true))) ∧
      (op ≠ 0x05#8 → t.ds = s.ds ∧ t.phase ≠ .consumed) ∧
      (op ≠ 0x01#8 → op ≠ 0x02#8 → op ≠ 0x03#8 → t.outputLength = s.outputLength ∧ t.f1 = s.f1)

/-- R265: the classes of the outcomes. A command in a state already faulted changes nothing; elsewhere it completes or takes
a fault, whose state is the old one plus `phase` and `cause`; a step is stuck on an incomplete frame and on nothing else,
has ended when CS is empty, and is never refused. That the engine's fault is a next state in the three outcomes of a step,
and the two reasons for having no step, are the model's choice (log entries 3 and 5). -/
def Obligations.OutcomesAreClassified : Prop :=
  (∀ (i : Instr) (s : State),
    (s.phase = .fault → classify s (exec i s) = .ignored ∧ exec i s = .next s) ∧
    (s.phase ≠ .fault →
      (∃ t, t.phase ≠ .fault ∧ classify s (exec i s) = .next t ∧ exec i s = .next t) ∨
        ∃ c, c ≠ .noFault ∧ classify s (exec i s) = .fault c ∧
          exec i s = .next { s with phase := .fault, cause := c })) ∧
  ∀ s : State,
    classify s (step s) ≠ .refused ∧
    (classify s (step s) = .ignored ↔ s.phase = .fault) ∧
    (classify s (step s) = .ended ↔ s.phase ≠ .fault ∧ s.cs = []) ∧
    (classify s (step s) = .stuck →
      s.phase ≠ .fault ∧ s.cs ≠ [] ∧
        (∀ i rest, decode s.cs ≠ .instr i rest) ∧
        ∃ (i : Instr) (more : List Byte), i.WellFormed = true ∧ more ≠ [] ∧ s.cs ++ more = encode i)

/-- R298, R56: wherever a run starts, once as many steps have been tried as bytes wait on CS it has either ended or is stuck
in an incomplete frame, never both; where it has ended outside FAULT there is no further step. The reasons for having no
step are the model's form (log entry 5). -/
def Obligations.EveryRunEndsOrIsStuck : Prop :=
  ∀ s : State,
    (Ended (runToRest s) ∨ Stuck (runToRest s)) ∧ ¬ (Ended (runToRest s) ∧ Stuck (runToRest s)) ∧
    (Ended (runToRest s) → (runToRest s).phase ≠ .fault → step (runToRest s) = .fault .sequenceExhausted)

/-- R10, R298: a run from reset on the frames of a command sequence ends, and shows on DS and in `phase` and `cause` what
the commands leave; it is successful exactly when their final `phase` is not FAULT, and a completed set of transactions
exactly when it is IDLE or CONSUMED. With a frame cut short after them it has not ended and is neither, unless it has faulted
before: that a cut header out of range or not allowed in the phase is awaited and takes no fault earlier is the model's
reading of R89 (log entry 4), and `Stuck` is its form of having no step (log entry 5). -/
def Obligations.RunFromResetShowsTheCommands : Prop :=
  ∀ is : List Instr, (∀ i ∈ is, i.WellFormed = true) →
    ∃ u, runCommands is State.reset = .next u ∧
      observe (runFromReset (is.flatMap encode)) = observe u ∧
      Ended (runFromReset (is.flatMap encode)) ∧
      (Successful (runFromReset (is.flatMap encode)) ↔ u.phase ≠ .fault) ∧
      (Completed (runFromReset (is.flatMap encode)) ↔ u.phase = .idle ∨ u.phase = .consumed) ∧
      ∀ (i : Instr) (k : Nat), u.phase ≠ .fault → i.WellFormed = true → 0 < k → k < (encode i).length →
        ((∀ len data, i ≠ .absorb len data) ∨ u.phase = .active ∨ k < 9) →
          Stuck (runFromReset (is.flatMap encode ++ (encode i).take k)) ∧
          ¬ Successful (runFromReset (is.flatMap encode ++ (encode i).take k)) ∧
          ¬ Completed (runFromReset (is.flatMap encode ++ (encode i).take k))

/-- R9, R108, R183, R210: which internal operations have the effect of a host command, and which no host command has the
effect of. CONSTRUCT is what INIT_KDF does in every state, and in phase ACTIVE ABSORB_BODY is what ABSORB does, PUSH_BYTE
what ABSORB of one byte does, and PAD what ABSORB of as many zero bytes as fit does. No command, well formed or not, does
CTR_ADD alone of a part of a block, COMPRESS_FULL alone (short of the counter's overflow), or the emission alone of what
SERIALIZE gives. -/
def Obligations.InternalOperationsAndHostCommands : Prop :=
  (∀ (s t : State) (nn kk sl il : Byte) (key salt info : List Byte),
    runInternal (.construct nn kk sl il key salt info) s = .state t ↔
      exec (.initKdf nn kk sl il key salt info) s = .next t) ∧
  ∀ s : State, s.phase = .active →
    (∀ (t : State) (len : Word) (data : List Byte),
      runInternal (.absorbBody data) s = .state t ↔ exec (.absorb len data) s = .next t) ∧
    (∀ (t : State) (len : Word) (b : Byte),
      runInternal (.pushByte b) s = .state t ↔ exec (.absorb len [b]) s = .next t) ∧
    (∀ (t : State) (len : Word),
      runInternal .pad s = .state t ↔ exec (.absorb len (zeros (128 - s.n.val))) s = .next t) ∧
    ∀ (i : Instr) (t : State), exec i s = .next t →
      (∀ k, 0 < k → k < 128 → 128 ∣ counter s → runInternal (.ctrAdd k) s ≠ .state t) ∧
      (s.n.val = 128 → counter s + 128 < 2 ^ 128 → runInternal .compressFull s ≠ .state t) ∧
      (∀ len bs, 0 < len → runInternal (.serialize s.h len) s = .bytes bs → emit bs s ≠ t)
end

