-- ==== Sys2Proof/Laws/Bytes.lean ====
section
/-! SUPPORT. Byte strings and the little-endian conversions. -/

namespace Sys2Proof.Machine

@[simp] theorem zeros_length (k : Nat) : (zeros k).length = k := by simp [zeros]

@[simp] theorem zeros_zero : zeros 0 = [] := rfl

theorem zeros_getElem? (k j : Nat) : (zeros k)[j]? = if j < k then some 0 else none := by
  simp [zeros, List.getElem?_replicate]

@[simp] theorem le64Bytes_length (w : Word) : (le64Bytes w).length = 8 := rfl

/-- A byte string spells a number below 256 to its length. -/
theorem leNat_lt (bs : List Byte) : leNat bs < 2 ^ (8 * bs.length) := by
  induction bs with
  | nil => simp [leNat]
  | cons b bs ih =>
    have hb := b.isLt
    have : 2 ^ (8 * (b :: bs).length) = 2 ^ 8 * 2 ^ (8 * bs.length) := by
      rw [← Nat.pow_add]; congr 1; simp; omega
    rw [this, leNat]
    omega

/-- Eight bytes spell a number that fits a word. -/
theorem le64_toNat (bs : List Byte) (h : bs.length ≤ 8) : (le64 bs).toNat = leNat bs := by
  have hlt := leNat_lt bs
  have : (2 : Nat) ^ (8 * bs.length) ≤ 2 ^ 64 := Nat.pow_le_pow_right (by decide) (by omega)
  simp only [le64, BitVec.toNat_ofNat]
  exact Nat.mod_eq_of_lt (by omega)

/-- Byte k of the number a byte string spells is the string's byte k. -/
theorem leNat_byte (bs : List Byte) (k : Nat) :
    leNat bs / 2 ^ (8 * k) % 2 ^ 8 = (bs.getD k 0).toNat := by
  induction bs generalizing k with
  | nil => simp [leNat]
  | cons b bs ih =>
    have hb := b.isLt
    cases k with
    | zero => simp [leNat]; omega
    | succ k =>
      have hp : 2 ^ (8 * (k + 1)) = 2 ^ 8 * 2 ^ (8 * k) := by rw [← Nat.pow_add]; congr 1; omega
      rw [hp, ← Nat.div_div_eq_div_mul, leNat]
      have : (b.toNat + 2 ^ 8 * leNat bs) / 2 ^ 8 = leNat bs := by omega
      rw [this, ih]
      simp

/-- The byte fields of an assembled word are the bytes it was assembled from. -/
theorem byteOf_le64 (bs : List Byte) (h : bs.length ≤ 8) (k : Nat) : byteOf (le64 bs) k = bs.getD k 0 := by
  apply BitVec.eq_of_toNat_eq
  rw [byteOf, BitVec.extractLsb'_toNat, le64_toNat bs h, Nat.shiftRight_eq_div_pow, leNat_byte]

end Sys2Proof.Machine
end

