-- ==== Sys2Proof/Laws/Memory.lean ====
section
/-! SUPPORT. The buffer's cells: reading after writing, and that every memory operation keeps the one form of the cell
list. -/

namespace Sys2Proof.Machine

@[simp] theorem lookupCell_writeCell_same (m : Memory) (a : Nat) (b : Byte) :
    lookupCell (writeCell m a b) a = some b := by
  induction m with
  | nil => simp [writeCell, lookupCell]
  | cons e m ih =>
    obtain ⟨x, c⟩ := e
    simp only [writeCell]
    split
    · simp [lookupCell]
    · split
      · simp [lookupCell]
      · rename_i hx
        simp [lookupCell, ih]
        omega

theorem lookupCell_writeCell_other (m : Memory) (a a' : Nat) (b : Byte) (h : a' ≠ a) :
    lookupCell (writeCell m a b) a' = lookupCell m a' := by
  have h' : a ≠ a' := fun e => h e.symm
  induction m with
  | nil => simp [writeCell, lookupCell, h']
  | cons e m ih =>
    obtain ⟨x, c⟩ := e
    simp only [writeCell]
    split
    · simp [lookupCell, h']
    · split
      · rename_i hx
        subst hx
        simp [lookupCell, h']
      · simp [lookupCell, ih]

/-- A byte read back from where it was written. -/
@[simp] theorem readByte_writeByte_same (m : Memory) (a : Fin 128) (b : Byte) :
    readByte (writeByte m a b) a = b := by simp [readByte, writeByte]

/-- A write leaves every other cell alone. -/
theorem readByte_writeByte_other (m : Memory) (a a' : Fin 128) (b : Byte) (h : a' ≠ a) :
    readByte (writeByte m a b) a' = readByte m a' := by
  simp only [readByte, writeByte]
  rw [lookupCell_writeCell_other m a.val a'.val b (fun e => h (Fin.ext e))]

theorem readByte_writeByte (m : Memory) (a a' : Fin 128) (b : Byte) :
    readByte (writeByte m a b) a' = if a' = a then b else readByte m a' := by
  split
  · rename_i h; subst h; simp
  · rename_i h; exact readByte_writeByte_other m a a' b h

theorem mem_writeCell (m : Memory) (a : Nat) (b : Byte) (e : Host.Cell) (h : e ∈ writeCell m a b) :
    e = (a, b) ∨ e ∈ m := by
  induction m with
  | nil => simpa [writeCell] using h
  | cons x m ih =>
    obtain ⟨x, c⟩ := x
    simp only [writeCell] at h
    split at h
    · simpa using h
    · split at h
      · rcases List.mem_cons.1 h with h | h
        · exact .inl h
        · exact .inr (List.mem_cons_of_mem _ h)
      · rcases List.mem_cons.1 h with h | h
        · exact .inr (h ▸ List.mem_cons_self)
        · rcases ih h with h | h
          · exact .inl h
          · exact .inr (List.mem_cons_of_mem _ h)

theorem writeCell_sorted (m : Memory) (a : Nat) (b : Byte)
    (h : m.Pairwise fun x y => x.1 < y.1) : (writeCell m a b).Pairwise fun x y => x.1 < y.1 := by
  induction m with
  | nil => simp [writeCell]
  | cons x m ih =>
    obtain ⟨x, c⟩ := x
    rw [List.pairwise_cons] at h
    simp only [writeCell]
    split
    · rename_i hx
      refine List.pairwise_cons.2 ⟨fun y hy => ?_, List.pairwise_cons.2 h⟩
      rcases List.mem_cons.1 hy with rfl | hy
      · exact hx
      · exact Nat.lt_trans hx (h.1 y hy)
    · split
      · rename_i hx
        subst hx
        exact List.pairwise_cons.2 ⟨h.1, h.2⟩
      · refine List.pairwise_cons.2 ⟨fun y hy => ?_, ih h.2⟩
        rcases mem_writeCell m a b y hy with rfl | hy
        · show x < a
          omega
        · exact h.1 y hy

theorem Memory.wf_iff (m : Memory) :
    m.wf = true ↔ (m.Pairwise fun x y => x.1 < y.1) ∧ ∀ e ∈ m, e.1 < 128 := by
  simp [Memory.wf]

@[simp] theorem Memory.wf_nil : Memory.wf [] = true := rfl

@[simp] theorem State.reset_buf_wf : State.reset.buf.wf = true := rfl

/-- A byte write keeps the form. -/
theorem writeByte_wf (m : Memory) (a : Fin 128) (b : Byte) (h : m.wf = true) :
    (writeByte m a b).wf = true := by
  rw [Memory.wf_iff] at h ⊢
  refine ⟨writeCell_sorted m a.val b h.1, fun e he => ?_⟩
  rcases mem_writeCell m a.val b e he with rfl | he
  · exact a.isLt
  · exact h.2 e he

/-- A word write keeps the form. -/
theorem writeWord_wf (m : Memory) (a : Fin 121) (e : Word) (h : m.wf = true) :
    (writeWord m a e).wf = true := by
  rw [writeWord]
  generalize List.range 8 = ks
  induction ks generalizing m with
  | nil => exact h
  | cons k ks ih => exact ih _ (writeByte_wf _ _ _ h)

/-- Padding keeps the form. -/
theorem zeroCells_wf (k : Nat) (m : Memory) (h : m.wf = true) : (zeroCells k m).wf = true := by
  induction k generalizing m with
  | zero => exact h
  | succ k ih => exact ih _ (writeByte_wf _ _ _ h)

/-- After padding the last k cells they hold zero and the others what they held. -/
theorem readByte_zeroCells (k : Nat) (hk : k ≤ 128) (m : Memory) (a : Fin 128) :
    readByte (zeroCells k m) a = if a.val < 128 - k then readByte m a else 0 := by
  induction k generalizing m with
  | zero =>
    have := a.isLt
    simp [zeroCells]
  | succ k ih =>
    have hv : (Fin.ofNat 128 (127 - k)).val = 127 - k := by simp [Fin.ofNat]; omega
    rw [zeroCells, ih (by omega), readByte_writeByte]
    have ha := a.isLt
    by_cases e : a = Fin.ofNat 128 (127 - k)
    · have hav : a.val = 127 - k := by rw [e]; exact hv
      simp only [if_pos e]
      rw [if_neg (show ¬ a.val < 128 - (k + 1) by omega)]
      split <;> rfl
    · have hav : a.val ≠ 127 - k := fun h => e (Fin.ext (h.trans hv.symm))
      simp only [if_neg e]
      by_cases hlt : a.val < 128 - k
      · rw [if_pos hlt, if_pos (show a.val < 128 - (k + 1) by omega)]
      · rw [if_neg hlt, if_neg (show ¬ a.val < 128 - (k + 1) by omega)]

@[simp] theorem bufPrefix_length (m : Memory) (k : Nat) : (bufPrefix m k).length = k := by simp [bufPrefix]

@[simp] theorem bufPrefix_zero (m : Memory) : bufPrefix m 0 = [] := rfl

@[simp] theorem wholeBlock_length (m : Memory) : (wholeBlock m).length = 128 := bufPrefix_length m 128

theorem bufPrefix_getElem? (m : Memory) (k a : Nat) (h : a < k) :
    (bufPrefix m k)[a]? = some (readByte m (Fin.ofNat 128 a)) := by
  simp [bufPrefix, h]

theorem bufPrefix_succ (m : Memory) (k : Nat) :
    bufPrefix m (k + 1) = bufPrefix m k ++ [readByte m (Fin.ofNat 128 k)] := by
  simp [bufPrefix, List.range_succ]

/-- Cell lists that agree below an index have the same prefix up to it. -/
theorem bufPrefix_congr (m m' : Memory) (k : Nat) (hk : k ≤ 128)
    (h : ∀ a : Fin 128, a.val < k → readByte m a = readByte m' a) : bufPrefix m k = bufPrefix m' k := by
  refine List.map_congr_left fun a ha => h _ ?_
  rw [List.mem_range] at ha
  have : (Fin.ofNat 128 a).val = a := by simp [Fin.ofNat]; omega
  omega

/-- A prefix does not see a write at or above its end. -/
theorem bufPrefix_writeByte (m : Memory) (a : Fin 128) (b : Byte) (k : Nat) (h : k ≤ a.val) :
    bufPrefix (writeByte m a b) k = bufPrefix m k :=
  bufPrefix_congr _ _ _ (by omega) fun x hx =>
    readByte_writeByte_other m a x b (fun e => by subst e; omega)

/-- The padded buffer is the prefix followed by zero bytes. -/
theorem wholeBlock_zeroCells (m : Memory) (n : Nat) (hn : n ≤ 128) :
    wholeBlock (zeroCells (128 - n) m) = bufPrefix m n ++ zeros (128 - n) := by
  have hread := readByte_zeroCells (128 - n) (by omega) m
  apply List.ext_getElem?
  intro j
  by_cases hj : j < 128
  · have hv : (Fin.ofNat 128 j).val = j := by simp [Fin.ofNat]; omega
    rw [wholeBlock, bufPrefix_getElem? _ _ _ hj, hread, hv]
    by_cases hjn : j < n
    · rw [if_pos (by omega), List.getElem?_append_left (by simpa using hjn), bufPrefix_getElem? _ _ _ hjn]
    · rw [if_neg (by omega), List.getElem?_append_right (by simp; omega), zeros_getElem?, if_pos (by simp; omega)]
  · rw [List.getElem?_eq_none (by simp; omega), List.getElem?_eq_none (by simp; omega)]

/-- A cell is written as soon as a write has named it, and stays so. -/
theorem lookupCell_writeByte_isSome (m : Memory) (a : Fin 128) (b : Byte) (x : Nat)
    (h : x = a.val ∨ (lookupCell m x).isSome = true) : (lookupCell (writeByte m a b) x).isSome = true := by
  by_cases e : x = a.val
  · subst e; simp [writeByte]
  · rw [writeByte, lookupCell_writeCell_other m a.val x b e]
    exact h.resolve_left e

theorem lookupCell_zeroCells_isSome (k : Nat) (m : Memory) (x : Nat)
    (h : (128 - k ≤ x ∧ x < 128) ∨ (lookupCell m x).isSome = true) :
    (lookupCell (zeroCells k m) x).isSome = true := by
  induction k generalizing m with
  | zero => rcases h with h | h
            · omega
            · exact h
  | succ k ih =>
    have hv : (Fin.ofNat 128 (127 - k)).val = 127 - k := by simp [Fin.ofNat]; omega
    refine ih _ ?_
    by_cases hx : 128 - k ≤ x ∧ x < 128
    · exact .inl hx
    · refine .inr (lookupCell_writeByte_isSome _ _ _ _ ?_)
      rcases h with h | h
      · left; omega
      · exact .inr h

end Sys2Proof.Machine
end

