-- ==== Sys2Proof/Laws/State.lean ====
section
/-! SUPPORT. For each operation that writes the state, what each field holds after it, so that no proof unfolds a record
update. -/

namespace Sys2Proof.Machine

@[simp] theorem clearFlags_h (s : State) : (clearFlags s).h = s.h := rfl
@[simp] theorem clearFlags_t0 (s : State) : (clearFlags s).t0 = s.t0 := rfl
@[simp] theorem clearFlags_t1 (s : State) : (clearFlags s).t1 = s.t1 := rfl
@[simp] theorem clearFlags_f0 (s : State) : (clearFlags s).f0 = 0 := rfl
@[simp] theorem clearFlags_f1 (s : State) : (clearFlags s).f1 = 0 := rfl
@[simp] theorem clearFlags_buf (s : State) : (clearFlags s).buf = s.buf := rfl
@[simp] theorem clearFlags_n (s : State) : (clearFlags s).n = s.n := rfl
@[simp] theorem clearFlags_outputLength (s : State) : (clearFlags s).outputLength = s.outputLength := rfl
@[simp] theorem clearFlags_phase (s : State) : (clearFlags s).phase = s.phase := rfl
@[simp] theorem clearFlags_cause (s : State) : (clearFlags s).cause = s.cause := rfl
@[simp] theorem clearFlags_cs (s : State) : (clearFlags s).cs = s.cs := rfl
@[simp] theorem clearFlags_ds (s : State) : (clearFlags s).ds = s.ds := rfl

@[simp] theorem setLastBlock_h (s : State) : (setLastBlock s).h = s.h := rfl
@[simp] theorem setLastBlock_t0 (s : State) : (setLastBlock s).t0 = s.t0 := rfl
@[simp] theorem setLastBlock_t1 (s : State) : (setLastBlock s).t1 = s.t1 := rfl
@[simp] theorem setLastBlock_f0 (s : State) : (setLastBlock s).f0 = Word.allOnes := rfl
@[simp] theorem setLastBlock_f1 (s : State) : (setLastBlock s).f1 = s.f1 := rfl
@[simp] theorem setLastBlock_buf (s : State) : (setLastBlock s).buf = s.buf := rfl
@[simp] theorem setLastBlock_n (s : State) : (setLastBlock s).n = s.n := rfl
@[simp] theorem setLastBlock_outputLength (s : State) : (setLastBlock s).outputLength = s.outputLength := rfl
@[simp] theorem setLastBlock_phase (s : State) : (setLastBlock s).phase = s.phase := rfl
@[simp] theorem setLastBlock_cause (s : State) : (setLastBlock s).cause = s.cause := rfl
@[simp] theorem setLastBlock_cs (s : State) : (setLastBlock s).cs = s.cs := rfl
@[simp] theorem setLastBlock_ds (s : State) : (setLastBlock s).ds = s.ds := rfl

@[simp] theorem emit_h (bs : List Byte) (s : State) : (emit bs s).h = s.h := rfl
@[simp] theorem emit_t0 (bs : List Byte) (s : State) : (emit bs s).t0 = s.t0 := rfl
@[simp] theorem emit_t1 (bs : List Byte) (s : State) : (emit bs s).t1 = s.t1 := rfl
@[simp] theorem emit_f0 (bs : List Byte) (s : State) : (emit bs s).f0 = s.f0 := rfl
@[simp] theorem emit_f1 (bs : List Byte) (s : State) : (emit bs s).f1 = s.f1 := rfl
@[simp] theorem emit_buf (bs : List Byte) (s : State) : (emit bs s).buf = s.buf := rfl
@[simp] theorem emit_n (bs : List Byte) (s : State) : (emit bs s).n = s.n := rfl
@[simp] theorem emit_outputLength (bs : List Byte) (s : State) :
    (emit bs s).outputLength = s.outputLength := rfl
@[simp] theorem emit_phase (bs : List Byte) (s : State) : (emit bs s).phase = s.phase := rfl
@[simp] theorem emit_cause (bs : List Byte) (s : State) : (emit bs s).cause = s.cause := rfl
@[simp] theorem emit_cs (bs : List Byte) (s : State) : (emit bs s).cs = s.cs := rfl
@[simp] theorem emit_ds (bs : List Byte) (s : State) : (emit bs s).ds = s.ds ++ bs := rfl

@[simp] theorem ctrAdd_h (k : Nat) (s : State) : (ctrAdd k s).h = s.h := rfl
@[simp] theorem ctrAdd_t0 (k : Nat) (s : State) : (ctrAdd k s).t0 = BitVec.ofNat 64 (s.t0.toNat + k) := rfl
@[simp] theorem ctrAdd_t1 (k : Nat) (s : State) :
    (ctrAdd k s).t1 = s.t1 + (if 2 ^ 64 ≤ s.t0.toNat + k then 1 else 0) := rfl
@[simp] theorem ctrAdd_f0 (k : Nat) (s : State) : (ctrAdd k s).f0 = s.f0 := rfl
@[simp] theorem ctrAdd_f1 (k : Nat) (s : State) : (ctrAdd k s).f1 = s.f1 := rfl
@[simp] theorem ctrAdd_buf (k : Nat) (s : State) : (ctrAdd k s).buf = s.buf := rfl
@[simp] theorem ctrAdd_n (k : Nat) (s : State) : (ctrAdd k s).n = s.n := rfl
@[simp] theorem ctrAdd_outputLength (k : Nat) (s : State) : (ctrAdd k s).outputLength = s.outputLength := rfl
@[simp] theorem ctrAdd_phase (k : Nat) (s : State) : (ctrAdd k s).phase = s.phase := rfl
@[simp] theorem ctrAdd_cause (k : Nat) (s : State) : (ctrAdd k s).cause = s.cause := rfl
@[simp] theorem ctrAdd_cs (k : Nat) (s : State) : (ctrAdd k s).cs = s.cs := rfl
@[simp] theorem ctrAdd_ds (k : Nat) (s : State) : (ctrAdd k s).ds = s.ds := rfl

@[simp] theorem takeFault_h (c : Cause) (s : State) : (takeFault c s).h = s.h := rfl
@[simp] theorem takeFault_t0 (c : Cause) (s : State) : (takeFault c s).t0 = s.t0 := rfl
@[simp] theorem takeFault_t1 (c : Cause) (s : State) : (takeFault c s).t1 = s.t1 := rfl
@[simp] theorem takeFault_f0 (c : Cause) (s : State) : (takeFault c s).f0 = s.f0 := rfl
@[simp] theorem takeFault_f1 (c : Cause) (s : State) : (takeFault c s).f1 = s.f1 := rfl
@[simp] theorem takeFault_buf (c : Cause) (s : State) : (takeFault c s).buf = s.buf := rfl
@[simp] theorem takeFault_n (c : Cause) (s : State) : (takeFault c s).n = s.n := rfl
@[simp] theorem takeFault_outputLength (c : Cause) (s : State) :
    (takeFault c s).outputLength = s.outputLength := rfl
@[simp] theorem takeFault_phase (c : Cause) (s : State) : (takeFault c s).phase = .fault := rfl
@[simp] theorem takeFault_cause (c : Cause) (s : State) : (takeFault c s).cause = c := rfl
@[simp] theorem takeFault_cs (c : Cause) (s : State) : (takeFault c s).cs = s.cs := rfl
@[simp] theorem takeFault_ds (c : Cause) (s : State) : (takeFault c s).ds = s.ds := rfl

@[simp] theorem setStream_h (cs : List Byte) (s : State) : (setStream cs s).h = s.h := rfl
@[simp] theorem setStream_t0 (cs : List Byte) (s : State) : (setStream cs s).t0 = s.t0 := rfl
@[simp] theorem setStream_t1 (cs : List Byte) (s : State) : (setStream cs s).t1 = s.t1 := rfl
@[simp] theorem setStream_f0 (cs : List Byte) (s : State) : (setStream cs s).f0 = s.f0 := rfl
@[simp] theorem setStream_f1 (cs : List Byte) (s : State) : (setStream cs s).f1 = s.f1 := rfl
@[simp] theorem setStream_buf (cs : List Byte) (s : State) : (setStream cs s).buf = s.buf := rfl
@[simp] theorem setStream_n (cs : List Byte) (s : State) : (setStream cs s).n = s.n := rfl
@[simp] theorem setStream_outputLength (cs : List Byte) (s : State) :
    (setStream cs s).outputLength = s.outputLength := rfl
@[simp] theorem setStream_phase (cs : List Byte) (s : State) : (setStream cs s).phase = s.phase := rfl
@[simp] theorem setStream_cause (cs : List Byte) (s : State) : (setStream cs s).cause = s.cause := rfl
@[simp] theorem setStream_cs (cs : List Byte) (s : State) : (setStream cs s).cs = cs := rfl
@[simp] theorem setStream_ds (cs : List Byte) (s : State) : (setStream cs s).ds = s.ds := rfl

@[simp] theorem discardStream_h (s : State) : (discardStream s).h = s.h := rfl
@[simp] theorem discardStream_t0 (s : State) : (discardStream s).t0 = s.t0 := rfl
@[simp] theorem discardStream_t1 (s : State) : (discardStream s).t1 = s.t1 := rfl
@[simp] theorem discardStream_f0 (s : State) : (discardStream s).f0 = s.f0 := rfl
@[simp] theorem discardStream_f1 (s : State) : (discardStream s).f1 = s.f1 := rfl
@[simp] theorem discardStream_buf (s : State) : (discardStream s).buf = s.buf := rfl
@[simp] theorem discardStream_n (s : State) : (discardStream s).n = s.n := rfl
@[simp] theorem discardStream_outputLength (s : State) : (discardStream s).outputLength = s.outputLength := rfl
@[simp] theorem discardStream_phase (s : State) : (discardStream s).phase = s.phase := rfl
@[simp] theorem discardStream_cause (s : State) : (discardStream s).cause = s.cause := rfl
@[simp] theorem discardStream_cs (s : State) : (discardStream s).cs = [] := rfl
@[simp] theorem discardStream_ds (s : State) : (discardStream s).ds = s.ds := rfl

@[simp] theorem runF_h (s : State) : (runF s).h = compressF s.h (wholeBlock s.buf) s.t0 s.t1 s.f0 s.f1 := rfl
@[simp] theorem runF_t0 (s : State) : (runF s).t0 = s.t0 := rfl
@[simp] theorem runF_t1 (s : State) : (runF s).t1 = s.t1 := rfl
@[simp] theorem runF_f0 (s : State) : (runF s).f0 = s.f0 := rfl
@[simp] theorem runF_f1 (s : State) : (runF s).f1 = s.f1 := rfl
@[simp] theorem runF_buf (s : State) : (runF s).buf = s.buf := rfl
@[simp] theorem runF_n (s : State) : (runF s).n = s.n := rfl
@[simp] theorem runF_outputLength (s : State) : (runF s).outputLength = s.outputLength := rfl
@[simp] theorem runF_phase (s : State) : (runF s).phase = s.phase := rfl
@[simp] theorem runF_cause (s : State) : (runF s).cause = s.cause := rfl
@[simp] theorem runF_cs (s : State) : (runF s).cs = s.cs := rfl
@[simp] theorem runF_ds (s : State) : (runF s).ds = s.ds := rfl

@[simp] theorem compressFull_h (s : State) :
    (compressFull s).h = compressF s.h (wholeBlock s.buf) (ctrAdd 128 s).t0 (ctrAdd 128 s).t1 s.f0 s.f1 := rfl
@[simp] theorem compressFull_t0 (s : State) : (compressFull s).t0 = (ctrAdd 128 s).t0 := rfl
@[simp] theorem compressFull_t1 (s : State) : (compressFull s).t1 = (ctrAdd 128 s).t1 := rfl
@[simp] theorem compressFull_f0 (s : State) : (compressFull s).f0 = s.f0 := rfl
@[simp] theorem compressFull_f1 (s : State) : (compressFull s).f1 = s.f1 := rfl
@[simp] theorem compressFull_buf (s : State) : (compressFull s).buf = s.buf := rfl
@[simp] theorem compressFull_n (s : State) : (compressFull s).n = 0 := rfl
@[simp] theorem compressFull_outputLength (s : State) : (compressFull s).outputLength = s.outputLength := rfl
@[simp] theorem compressFull_phase (s : State) : (compressFull s).phase = s.phase := rfl
@[simp] theorem compressFull_cause (s : State) : (compressFull s).cause = s.cause := rfl
@[simp] theorem compressFull_cs (s : State) : (compressFull s).cs = s.cs := rfl
@[simp] theorem compressFull_ds (s : State) : (compressFull s).ds = s.ds := rfl

@[simp] theorem appendByte_h (b : Byte) (s : State) : (appendByte b s).h = s.h := rfl
@[simp] theorem appendByte_t0 (b : Byte) (s : State) : (appendByte b s).t0 = s.t0 := rfl
@[simp] theorem appendByte_t1 (b : Byte) (s : State) : (appendByte b s).t1 = s.t1 := rfl
@[simp] theorem appendByte_f0 (b : Byte) (s : State) : (appendByte b s).f0 = s.f0 := rfl
@[simp] theorem appendByte_f1 (b : Byte) (s : State) : (appendByte b s).f1 = s.f1 := rfl
@[simp] theorem appendByte_buf (b : Byte) (s : State) :
    (appendByte b s).buf = writeByte s.buf (Fin.ofNat 128 s.n.val) b := rfl
@[simp] theorem appendByte_n (b : Byte) (s : State) : (appendByte b s).n = Fin.ofNat 129 (s.n.val + 1) := rfl
@[simp] theorem appendByte_outputLength (b : Byte) (s : State) :
    (appendByte b s).outputLength = s.outputLength := rfl
@[simp] theorem appendByte_phase (b : Byte) (s : State) : (appendByte b s).phase = s.phase := rfl
@[simp] theorem appendByte_cause (b : Byte) (s : State) : (appendByte b s).cause = s.cause := rfl
@[simp] theorem appendByte_cs (b : Byte) (s : State) : (appendByte b s).cs = s.cs := rfl
@[simp] theorem appendByte_ds (b : Byte) (s : State) : (appendByte b s).ds = s.ds := rfl

@[simp] theorem newInstance_h (nn kk : Byte) (salt info : List Byte) (s : State) :
    (newInstance nn kk salt info s).h = hInit (pBuild nn kk salt info) := rfl
@[simp] theorem newInstance_t0 (nn kk : Byte) (salt info : List Byte) (s : State) :
    (newInstance nn kk salt info s).t0 = 0 := rfl
@[simp] theorem newInstance_t1 (nn kk : Byte) (salt info : List Byte) (s : State) :
    (newInstance nn kk salt info s).t1 = 0 := rfl
@[simp] theorem newInstance_f0 (nn kk : Byte) (salt info : List Byte) (s : State) :
    (newInstance nn kk salt info s).f0 = 0 := rfl
@[simp] theorem newInstance_f1 (nn kk : Byte) (salt info : List Byte) (s : State) :
    (newInstance nn kk salt info s).f1 = 0 := rfl
@[simp] theorem newInstance_buf (nn kk : Byte) (salt info : List Byte) (s : State) :
    (newInstance nn kk salt info s).buf = s.buf := rfl
@[simp] theorem newInstance_n (nn kk : Byte) (salt info : List Byte) (s : State) :
    (newInstance nn kk salt info s).n = 0 := rfl
@[simp] theorem newInstance_outputLength (nn kk : Byte) (salt info : List Byte) (s : State) :
    (newInstance nn kk salt info s).outputLength = nn.setWidth 7 := rfl
@[simp] theorem newInstance_phase (nn kk : Byte) (salt info : List Byte) (s : State) :
    (newInstance nn kk salt info s).phase = .active := rfl
@[simp] theorem newInstance_cause (nn kk : Byte) (salt info : List Byte) (s : State) :
    (newInstance nn kk salt info s).cause = s.cause := rfl
@[simp] theorem newInstance_cs (nn kk : Byte) (salt info : List Byte) (s : State) :
    (newInstance nn kk salt info s).cs = s.cs := rfl
@[simp] theorem newInstance_ds (nn kk : Byte) (salt info : List Byte) (s : State) :
    (newInstance nn kk salt info s).ds = s.ds := rfl

@[simp] theorem pad_h (s : State) : (pad s).h = s.h := rfl
@[simp] theorem pad_t0 (s : State) : (pad s).t0 = s.t0 := rfl
@[simp] theorem pad_t1 (s : State) : (pad s).t1 = s.t1 := rfl
@[simp] theorem pad_f0 (s : State) : (pad s).f0 = s.f0 := rfl
@[simp] theorem pad_f1 (s : State) : (pad s).f1 = s.f1 := rfl
@[simp] theorem pad_buf (s : State) : (pad s).buf = zeroCells (128 - s.n.val) s.buf := rfl
@[simp] theorem pad_n (s : State) : (pad s).n = 128 := rfl
@[simp] theorem pad_outputLength (s : State) : (pad s).outputLength = s.outputLength := rfl
@[simp] theorem pad_phase (s : State) : (pad s).phase = s.phase := rfl
@[simp] theorem pad_cause (s : State) : (pad s).cause = s.cause := rfl
@[simp] theorem pad_cs (s : State) : (pad s).cs = s.cs := rfl
@[simp] theorem pad_ds (s : State) : (pad s).ds = s.ds := rfl

@[simp] theorem compressLast_h (s : State) :
    (compressLast s).h = compressF s.h (wholeBlock (zeroCells (128 - s.n.val) s.buf)) (ctrAdd s.n.val s).t0
      (ctrAdd s.n.val s).t1 Word.allOnes s.f1 := rfl
@[simp] theorem compressLast_t0 (s : State) : (compressLast s).t0 = (ctrAdd s.n.val s).t0 := rfl
@[simp] theorem compressLast_t1 (s : State) : (compressLast s).t1 = (ctrAdd s.n.val s).t1 := rfl
@[simp] theorem compressLast_f0 (s : State) : (compressLast s).f0 = Word.allOnes := rfl
@[simp] theorem compressLast_f1 (s : State) : (compressLast s).f1 = s.f1 := rfl
@[simp] theorem compressLast_buf (s : State) : (compressLast s).buf = zeroCells (128 - s.n.val) s.buf := rfl
@[simp] theorem compressLast_n (s : State) : (compressLast s).n = 128 := rfl
@[simp] theorem compressLast_outputLength (s : State) : (compressLast s).outputLength = s.outputLength := rfl
@[simp] theorem compressLast_phase (s : State) : (compressLast s).phase = s.phase := rfl
@[simp] theorem compressLast_cause (s : State) : (compressLast s).cause = s.cause := rfl
@[simp] theorem compressLast_cs (s : State) : (compressLast s).cs = s.cs := rfl
@[simp] theorem compressLast_ds (s : State) : (compressLast s).ds = s.ds := rfl

end Sys2Proof.Machine
end

