-- ==== Sys2Proof/Laws/Absorb.lean ====
section
/-! SUPPORT. PUSH_BYTE and ABSORB_BODY: what they do to the buffer and its count, and what they never write. -/

namespace Sys2Proof.Machine

/-- PUSH_BYTE on a buffer with room appends. -/
theorem pushByte_room (s : State) (b : Byte) (h : s.n.val < 128) : pushByte s b = appendByte b s := by
  rw [pushByte, if_neg (by omega)]

/-- PUSH_BYTE on a full buffer compresses it, then appends. -/
theorem pushByte_full (s : State) (b : Byte) (h : s.n.val = 128) :
    pushByte s b = appendByte b (compressFull s) := by rw [pushByte, if_pos h]

/-- Everything one PUSH_BYTE can do. -/
theorem pushByte_cases (s : State) (b : Byte) :
    (s.n.val < 128 ∧ pushByte s b = appendByte b s) ∨
      (s.n.val = 128 ∧ pushByte s b = appendByte b (compressFull s)) := by
  by_cases h : s.n.val = 128
  · exact .inr ⟨h, pushByte_full s b h⟩
  · exact .inl ⟨by omega, pushByte_room s b (by omega)⟩

@[simp] theorem pushByte_f0 (s : State) (b : Byte) : (pushByte s b).f0 = s.f0 := by
  rcases pushByte_cases s b with ⟨_, h⟩ | ⟨_, h⟩ <;> simp [h]
@[simp] theorem pushByte_f1 (s : State) (b : Byte) : (pushByte s b).f1 = s.f1 := by
  rcases pushByte_cases s b with ⟨_, h⟩ | ⟨_, h⟩ <;> simp [h]
@[simp] theorem pushByte_outputLength (s : State) (b : Byte) : (pushByte s b).outputLength = s.outputLength := by
  rcases pushByte_cases s b with ⟨_, h⟩ | ⟨_, h⟩ <;> simp [h]
@[simp] theorem pushByte_phase (s : State) (b : Byte) : (pushByte s b).phase = s.phase := by
  rcases pushByte_cases s b with ⟨_, h⟩ | ⟨_, h⟩ <;> simp [h]
@[simp] theorem pushByte_cause (s : State) (b : Byte) : (pushByte s b).cause = s.cause := by
  rcases pushByte_cases s b with ⟨_, h⟩ | ⟨_, h⟩ <;> simp [h]
@[simp] theorem pushByte_cs (s : State) (b : Byte) : (pushByte s b).cs = s.cs := by
  rcases pushByte_cases s b with ⟨_, h⟩ | ⟨_, h⟩ <;> simp [h]
@[simp] theorem pushByte_ds (s : State) (b : Byte) : (pushByte s b).ds = s.ds := by
  rcases pushByte_cases s b with ⟨_, h⟩ | ⟨_, h⟩ <;> simp [h]

/-- After PUSH_BYTE the buffer is never empty: it holds one byte more, or the new byte alone. -/
theorem pushByte_n (s : State) (b : Byte) :
    (pushByte s b).n.val = if s.n.val = 128 then 1 else s.n.val + 1 := by
  rcases pushByte_cases s b with ⟨hn, h⟩ | ⟨hn, h⟩
  · rw [if_neg (by omega), h, appendByte_n]
    exact Nat.mod_eq_of_lt (by omega)
  · rw [if_pos hn, h]
    rfl

/-- PUSH_BYTE stores its byte at index `n`, or at 0 when the buffer was full, and nowhere else. -/
theorem pushByte_readByte (s : State) (b : Byte) (a : Fin 128) :
    readByte (pushByte s b).buf a = if a.val = s.n.val % 128 then b else readByte s.buf a := by
  rcases pushByte_cases s b with ⟨hn, h⟩ | ⟨hn, h⟩
  · have hiff : a = Fin.ofNat 128 s.n.val ↔ a.val = s.n.val % 128 := Fin.ext_iff
    simp only [h, appendByte_buf, readByte_writeByte, hiff]
  · have hiff : a = Fin.ofNat 128 (compressFull s).n.val ↔ a.val = 0 := Fin.ext_iff
    simp only [h, appendByte_buf, readByte_writeByte, hiff, hn, Nat.mod_self, compressFull_buf]

/-- The buffer's content after PUSH_BYTE. -/
theorem pushByte_bufPrefix (s : State) (b : Byte) :
    bufPrefix (pushByte s b).buf (pushByte s b).n.val =
      (if s.n.val = 128 then [] else bufPrefix s.buf s.n.val) ++ [b] := by
  rw [pushByte_n]
  rcases pushByte_cases s b with ⟨hn, h⟩ | ⟨hn, h⟩
  · have hv : (Fin.ofNat 128 s.n.val).val = s.n.val := by simp [Fin.ofNat]; omega
    rw [if_neg (by omega), if_neg (by omega), bufPrefix_succ, h, appendByte_buf,
      bufPrefix_writeByte _ _ _ _ (by omega)]
    simp
  · rw [if_pos hn, if_pos hn, bufPrefix_succ, h]
    simp

theorem pushByte_buf_wf (s : State) (b : Byte) (h : s.buf.wf = true) : (pushByte s b).buf.wf = true := by
  rcases pushByte_cases s b with ⟨_, e⟩ | ⟨_, e⟩ <;> rw [e] <;> exact writeByte_wf _ _ _ h

@[simp] theorem absorbBody_nil (s : State) : absorbBody [] s = s := rfl

theorem absorbBody_cons (b : Byte) (data : List Byte) (s : State) :
    absorbBody (b :: data) s = absorbBody data (pushByte s b) := rfl

/-- Absorbing a concatenation is absorbing its parts in order. -/
theorem absorbBody_append (a b : List Byte) (s : State) :
    absorbBody (a ++ b) s = absorbBody b (absorbBody a s) := List.foldl_append

@[simp] theorem absorbBody_f0 (data : List Byte) (s : State) : (absorbBody data s).f0 = s.f0 := by
  induction data generalizing s with
  | nil => rfl
  | cons b data ih => rw [absorbBody_cons, ih, pushByte_f0]
@[simp] theorem absorbBody_f1 (data : List Byte) (s : State) : (absorbBody data s).f1 = s.f1 := by
  induction data generalizing s with
  | nil => rfl
  | cons b data ih => rw [absorbBody_cons, ih, pushByte_f1]
@[simp] theorem absorbBody_outputLength (data : List Byte) (s : State) : (absorbBody data s).outputLength = s.outputLength := by
  induction data generalizing s with
  | nil => rfl
  | cons b data ih => rw [absorbBody_cons, ih, pushByte_outputLength]
@[simp] theorem absorbBody_phase (data : List Byte) (s : State) : (absorbBody data s).phase = s.phase := by
  induction data generalizing s with
  | nil => rfl
  | cons b data ih => rw [absorbBody_cons, ih, pushByte_phase]
@[simp] theorem absorbBody_cause (data : List Byte) (s : State) : (absorbBody data s).cause = s.cause := by
  induction data generalizing s with
  | nil => rfl
  | cons b data ih => rw [absorbBody_cons, ih, pushByte_cause]
@[simp] theorem absorbBody_cs (data : List Byte) (s : State) : (absorbBody data s).cs = s.cs := by
  induction data generalizing s with
  | nil => rfl
  | cons b data ih => rw [absorbBody_cons, ih, pushByte_cs]
@[simp] theorem absorbBody_ds (data : List Byte) (s : State) : (absorbBody data s).ds = s.ds := by
  induction data generalizing s with
  | nil => rfl
  | cons b data ih => rw [absorbBody_cons, ih, pushByte_ds]

theorem absorbBody_buf_wf (data : List Byte) (s : State) (h : s.buf.wf = true) :
    (absorbBody data s).buf.wf = true := by
  induction data generalizing s with
  | nil => exact h
  | cons b data ih => exact ih _ (pushByte_buf_wf s b h)

/-- Everything ABSORB can do. -/
theorem execAbsorb_cases (len : Word) (data : List Byte) (s : State) :
    (s.phase = .fault ∧ execAbsorb len data s = .next s) ∨
    (s.phase = .idle ∧ execAbsorb len data s = .next (takeFault .noInstance s)) ∨
    (s.phase = .consumed ∧ execAbsorb len data s = .next (takeFault .useAfterFinish s)) ∨
    (s.phase = .active ∧ execAbsorb len data s = .next (absorbBody data s)) := by
  cases h : s.phase <;> simp [execAbsorb, h]

end Sys2Proof.Machine
end

