-- ==== Sys2Proof/Laws/Compression.lean ====
section
/-! SUPPORT. F's message words one by one, and the index tables of F against the spec's tables of its schedule. -/

namespace Sys2Proof.Machine

open Sys2Proof.Safety

/-- Message word j is read at `8j` of the block (spec/30_encoding.md R97). -/
theorem messageWords_get (block : List Byte) (j : Fin 16) :
    (messageWords block)[j] = le64 ((block.drop (8 * j.val)).take 8) := by
  revert j
  simp only [Fin.forall_fin_succ]
  exact ⟨rfl, rfl, rfl, rfl, rfl, rfl, rfl, rfl, rfl, rfl, rfl, rfl, rfl, rfl, rfl, rfl, fun j => j.elim0⟩

/-- The quadruples F uses are the table's (R103). -/
theorem quadTable_get : ∀ i : Fin 8,
    quadTable[i] = (quads[i].a, quads[i].b, quads[i].c, quads[i].d) := by decide +kernel

/-- The message words F takes through SIGMA (R104) are the full schedule's (R106). -/
theorem scheduleTable_get : ∀ (r : Fin 12) (i : Fin 8),
    scheduleTable[r][i] = (sigma[r][2 * i.val], sigma[r][2 * i.val + 1]) := by decide +kernel

end Sys2Proof.Machine
end

