-- ==== Sys2Proof/Laws/Construct.lean ====
section
/-! SUPPORT. CONSTRUCT: its range guard in numbers, its three outcomes, the lengths of what it builds. -/

namespace Sys2Proof.Machine

/-- The range guard, as R242 writes it. -/
theorem paramsInRange_iff (nn kk sl il : Byte) :
    paramsInRange nn kk sl il = true ↔
      (1 ≤ nn.toNat ∧ nn.toNat ≤ 64) ∧ kk.toNat ≤ 64 ∧ sl.toNat ≤ 16 ∧ il.toNat ≤ 16 := by
  simp [paramsInRange, nnInRange, kkInRange, slInRange, ilInRange, and_assoc]

@[simp] theorem paramField_length (bs : List Byte) : (paramField bs).length = 16 := by
  simp [paramField]

@[simp] theorem pBuild_length (nn kk : Byte) (salt info : List Byte) : (pBuild nn kk salt info).length = 64 := by
  simp [pBuild]

theorem keyBlock_length (key : List Byte) (h : key.length ≤ 128) : (keyBlock key).length = 128 := by
  simp [keyBlock]; omega

/-- Everything CONSTRUCT can do. -/
theorem construct_cases (nn kk sl il : Byte) (key salt info : List Byte) (s : State) :
    (s.phase = .fault ∧ construct nn kk sl il key salt info s = s) ∨
    (s.phase ≠ .fault ∧ paramsInRange nn kk sl il = false ∧
      construct nn kk sl il key salt info s = takeFault .paramRange s) ∨
    (s.phase ≠ .fault ∧ paramsInRange nn kk sl il = true ∧ kk.toNat = 0 ∧
      construct nn kk sl il key salt info s = newInstance nn kk salt info s) ∨
    (s.phase ≠ .fault ∧ paramsInRange nn kk sl il = true ∧ 0 < kk.toNat ∧
      construct nn kk sl il key salt info s =
        absorbBody (keyBlock key) (newInstance nn kk salt info s)) := by
  by_cases hp : s.phase = .fault
  · exact .inl ⟨hp, by simp [construct, hp]⟩
  · by_cases hr : paramsInRange nn kk sl il = true
    · by_cases hk : 0 < kk.toNat
      · exact .inr (.inr (.inr ⟨hp, hr, hk, by simp [construct, hp, hr, hk]⟩))
      · exact .inr (.inr (.inl ⟨hp, hr, by omega, by simp [construct, hp, hr, hk]⟩))
    · exact .inr (.inl ⟨hp, by simpa using hr, by simp [construct, hp, hr]⟩)

theorem construct_buf_wf (nn kk sl il : Byte) (key salt info : List Byte) (s : State)
    (h : s.buf.wf = true) : (construct nn kk sl il key salt info s).buf.wf = true := by
  rcases construct_cases nn kk sl il key salt info s with ⟨_, e⟩ | ⟨_, _, e⟩ | ⟨_, _, _, e⟩ | ⟨_, _, _, e⟩ <;>
    rw [e]
  · exact h
  · exact h
  · exact h
  · exact absorbBody_buf_wf _ _ h

end Sys2Proof.Machine
end

