-- ==== Sys2Proof/Laws/Decode.lean ====
section
/-! SUPPORT. The frame layer: splitting a payload off, and the header a frame begins with. -/

namespace Sys2Proof

open Machine

theorem splitPayload_some (k : Nat) (bs p rest : List Byte) :
    splitPayload k bs = some (p, rest) ↔ bs = p ++ rest ∧ p.length = k := by
  simp only [splitPayload]
  split
  · rename_i h
    simp only [reduceCtorEq, false_iff, not_and]
    rintro rfl hp
    simp at h
    omega
  · simp only [Option.some.injEq, Prod.mk.injEq]
    constructor
    · rintro ⟨rfl, rfl⟩
      exact ⟨(List.take_append_drop k bs).symm, by simp; omega⟩
    · rintro ⟨rfl, rfl⟩
      simp

theorem splitPayload_append (p rest : List Byte) : splitPayload p.length (p ++ rest) = some (p, rest) :=
  (splitPayload_some _ _ _ _).2 ⟨rfl, rfl⟩

@[simp] theorem splitPayload_zero (bs : List Byte) : splitPayload 0 bs = some ([], bs) :=
  (splitPayload_some _ _ _ _).2 ⟨rfl, rfl⟩

theorem splitPayload_none (k : Nat) (bs : List Byte) : splitPayload k bs = none ↔ bs.length < k := by
  simp only [splitPayload]; split <;> simp_all

/-- Everything the header decoder can answer with a header: the bytes before the rest are the header's. -/
theorem decodeHeader_header (bs : List Byte) (h : Header) (rest : List Byte) :
    decodeHeader bs = .header h rest →
      (∃ nn, h = .init nn ∧ bs = [0x01#8, nn] ++ rest) ∨
      (∃ nn kk, h = .initMac nn kk ∧ bs = [0x02#8, nn, kk] ++ rest) ∨
      (∃ nn kk sl il, h = .initKdf nn kk sl il ∧ bs = [0x03#8, nn, kk, sl, il] ++ rest) ∨
      (∃ l0 l1 l2 l3 l4 l5 l6 l7, h = .absorb (le64 [l0, l1, l2, l3, l4, l5, l6, l7]) ∧
        bs = [0x04#8, l0, l1, l2, l3, l4, l5, l6, l7] ++ rest) ∨
      (∃ rl, h = .finish rl ∧ bs = [0x05#8, rl] ++ rest) := by
  unfold decodeHeader
  split
  · simp
  · split
    · split <;> simp_all
    · split
      · split <;> simp_all
      · split
        · split <;> simp_all
        · split
          · split <;> simp_all
          · split
            · split <;> simp_all
            · simp

/-- The header decoder refuses a first byte exactly when it is none of the five opcodes (R90). -/
theorem decodeHeader_illegal (b : Byte) (bs : List Byte) (h : b.toNat < 1 ∨ 5 < b.toNat) :
    decodeHeader (b :: bs) = .illegal b bs := by
  have hne : ∀ k : Byte, 1 ≤ k.toNat → k.toNat ≤ 5 → b ≠ k := fun k h1 h5 e => by subst e; omega
  simp only [decodeHeader]
  rw [if_neg (hne _ (by decide) (by decide)), if_neg (hne _ (by decide) (by decide)),
    if_neg (hne _ (by decide) (by decide)), if_neg (hne _ (by decide) (by decide)),
    if_neg (hne _ (by decide) (by decide))]

theorem decodeHeader_ne_illegal (b : Byte) (bs : List Byte) (h1 : 1 ≤ b.toNat) (h5 : b.toNat ≤ 5)
    (op : Byte) (rest : List Byte) : decodeHeader (b :: bs) ≠ .illegal op rest := by
  have hb : b = 0x01#8 ∨ b = 0x02#8 ∨ b = 0x03#8 ∨ b = 0x04#8 ∨ b = 0x05#8 := by
    have : b = BitVec.ofNat 8 b.toNat := by simp
    rw [this]
    generalize b.toNat = k at *
    obtain rfl | rfl | rfl | rfl | rfl : k = 1 ∨ k = 2 ∨ k = 3 ∨ k = 4 ∨ k = 5 := by omega
    all_goals simp
  rcases hb with rfl | rfl | rfl | rfl | rfl <;> simp [decodeHeader] <;> split <;> simp

/-- A payload decodes to a command or is incomplete; it is never illegal. -/
theorem decodePayload_ne_illegal (aw : Bool) (h : Header) (bs : List Byte) (op : Byte) (rest : List Byte) :
    decodePayload aw h bs ≠ .illegal op rest := by
  cases h <;> simp only [decodePayload]
  all_goals repeat' split
  all_goals simp

/-- A header takes bytes from the stream. -/
theorem decodeHeader_shortens (bs : List Byte) (h : Header) (rest : List Byte)
    (hd : decodeHeader bs = .header h rest) : rest.length < bs.length := by
  rcases decodeHeader_header bs h rest hd with ⟨_, _, rfl⟩ | ⟨_, _, _, rfl⟩ | ⟨_, _, _, _, _, rfl⟩ |
    ⟨_, _, _, _, _, _, _, _, _, rfl⟩ | ⟨_, _, rfl⟩ <;> simp <;> omega

/-- An illegal opcode takes its byte from the stream. -/
theorem decodeHeader_illegal_rest (bs : List Byte) (op : Byte) (rest : List Byte)
    (hd : decodeHeader bs = .illegal op rest) : bs = op :: rest := by
  cases bs with
  | nil => simp [decodeHeader] at hd
  | cons b bs =>
    by_cases hb : b.toNat < 1 ∨ 5 < b.toNat
    · rw [decodeHeader_illegal b bs hb] at hd
      cases hd
      rfl
    · exact absurd hd (decodeHeader_ne_illegal b bs (by omega) (by omega) op rest)

/-- A payload takes nothing back. -/
theorem decodePayload_rest_le (aw : Bool) (h : Header) (bs : List Byte) (i : Instr) (rest : List Byte)
    (hd : decodePayload aw h bs = .instr i rest) : rest.length ≤ bs.length := by
  cases h with
  | init nn => simp only [decodePayload, Decoded.instr.injEq] at hd; simp [hd.2]
  | finish rl => simp only [decodePayload, Decoded.instr.injEq] at hd; simp [hd.2]
  | initMac nn kk =>
    simp only [decodePayload] at hd
    split at hd
    · cases hd
    · rename_i hs
      cases hd
      rw [((splitPayload_some _ _ _ _).1 hs).1]
      simp
  | absorb len =>
    simp only [decodePayload] at hd
    split at hd
    · cases hd
    · rename_i hs
      cases hd
      rw [((splitPayload_some _ _ _ _).1 hs).1]
      simp
  | initKdf nn kk sl il =>
    simp only [decodePayload] at hd
    split at hd
    · cases hd
    · rename_i h1
      split at hd
      · cases hd
      · rename_i h2
        split at hd
        · cases hd
        · rename_i h3
          cases hd
          rw [((splitPayload_some _ _ _ _).1 h1).1, ((splitPayload_some _ _ _ _).1 h2).1,
            ((splitPayload_some _ _ _ _).1 h3).1]
          simp only [List.length_append]
          omega

end Sys2Proof
end

