-- ==== Sys2Proof/Laws/Finish.lean ====
section
/-! SUPPORT. FINISH: its body field by field, its outcomes, the length of what it emits. -/

namespace Sys2Proof.Machine

@[simp] theorem digestBytes_length (h : Vector Word 8) : (digestBytes h).length = 64 := rfl

@[simp] theorem serialize_length (h : Vector Word 8) (len : Nat) :
    (serialize h len).length = min len 64 := by simp [serialize]

@[simp] theorem finishBody_h (s : State) : (finishBody s).h = (compressLast s).h := rfl
@[simp] theorem finishBody_t0 (s : State) : (finishBody s).t0 = (ctrAdd s.n.val s).t0 := rfl
@[simp] theorem finishBody_t1 (s : State) : (finishBody s).t1 = (ctrAdd s.n.val s).t1 := rfl
@[simp] theorem finishBody_f0 (s : State) : (finishBody s).f0 = Word.allOnes := rfl
@[simp] theorem finishBody_f1 (s : State) : (finishBody s).f1 = s.f1 := rfl
@[simp] theorem finishBody_buf (s : State) : (finishBody s).buf = zeroCells (128 - s.n.val) s.buf := rfl
@[simp] theorem finishBody_n (s : State) : (finishBody s).n = 128 := rfl
@[simp] theorem finishBody_outputLength (s : State) : (finishBody s).outputLength = s.outputLength := rfl
@[simp] theorem finishBody_phase (s : State) : (finishBody s).phase = .consumed := rfl
@[simp] theorem finishBody_cause (s : State) : (finishBody s).cause = s.cause := rfl
@[simp] theorem finishBody_cs (s : State) : (finishBody s).cs = s.cs := rfl
@[simp] theorem finishBody_ds (s : State) :
    (finishBody s).ds = s.ds ++ serialize (compressLast s).h s.outputLength.toNat := rfl

/-- Everything FINISH can do. -/
theorem execFinish_cases (rl : Byte) (s : State) :
    (s.phase = .fault ∧ execFinish rl s = .next s) ∨
    (s.phase = .idle ∧ execFinish rl s = .next (takeFault .noInstance s)) ∨
    (s.phase = .consumed ∧ execFinish rl s = .next (takeFault .useAfterFinish s)) ∨
    (s.phase = .active ∧ rl.toNat = s.outputLength.toNat ∧ execFinish rl s = .next (finishBody s)) ∨
    (s.phase = .active ∧ rl.toNat ≠ s.outputLength.toNat ∧
      execFinish rl s = .next (takeFault .outlenMismatch s)) := by
  cases h : s.phase <;> simp [execFinish, h]
  by_cases hr : rl.toNat = s.outputLength.toNat <;> simp [hr]

theorem finishBody_buf_wf (s : State) (h : s.buf.wf = true) : (finishBody s).buf.wf = true :=
  zeroCells_wf _ _ h

end Sys2Proof.Machine
end

