-- ==== Sys2Proof/Laws/Exec.lean ====
section
/-! SUPPORT. Everything `exec` can do, said once. -/

namespace Sys2Proof.Machine

/-- A new instance with its key block, if it has a key, absorbed: what an accepted construction command leaves. -/
theorem construct_accepted (nn kk sl il : Byte) (key salt info : List Byte) (s : State)
    (hp : s.phase ≠ .fault) (hr : paramsInRange nn kk sl il = true) :
    construct nn kk sl il key salt info s =
      if 0 < kk.toNat then absorbBody (keyBlock key) (newInstance nn kk salt info s)
      else newInstance nn kk salt info s := by
  simp [construct, hp, hr]

theorem construct_rejected (nn kk sl il : Byte) (key salt info : List Byte) (s : State)
    (hp : s.phase ≠ .fault) (hr : paramsInRange nn kk sl il = false) :
    construct nn kk sl il key salt info s = takeFault .paramRange s := by
  simp [construct, hp, hr]

theorem construct_ignored (nn kk sl il : Byte) (key salt info : List Byte) (s : State)
    (hp : s.phase = .fault) : construct nn kk sl il key salt info s = s := by
  simp [construct, hp]

/-- The three construction commands are CONSTRUCT of their operands, absent strings empty; a well-formed one whose operands
are in range carries as many key bytes as `kk` says. -/
theorem exec_construction (i : Instr) (hi : i.isConstruction = true) :
    ∃ nn kk sl il key salt info,
      (∀ s, exec i s = .next (construct nn kk sl il key salt info s)) ∧
      headerInRange i.header = paramsInRange nn kk sl il ∧
      (i.WellFormed = true → paramsInRange nn kk sl il = true →
        key.length = kk.toNat ∧ salt.length = sl.toNat ∧ info.length = il.toNat) := by
  cases i with
  | init nn => exact ⟨nn, 0, 0, 0, [], [], [], fun _ => rfl, rfl, fun _ _ => ⟨rfl, rfl, rfl⟩⟩
  | initMac nn kk key =>
    refine ⟨nn, kk, 0, 0, key, [], [], fun _ => rfl, rfl, fun hw hr => ?_⟩
    simp only [Instr.WellFormed, headerInRange, hr, cond_true, beq_iff_eq] at hw
    exact ⟨hw, rfl, rfl⟩
  | initKdf nn kk sl il key salt info =>
    refine ⟨nn, kk, sl, il, key, salt, info, fun _ => rfl, rfl, fun hw hr => ?_⟩
    simp only [Instr.WellFormed, headerInRange, hr, cond_true, beq_iff_eq, Bool.and_eq_true] at hw
    exact ⟨hw.1.1, hw.1.2, hw.2⟩
  | absorb len data => simp [Instr.isConstruction] at hi
  | finish rl => simp [Instr.isConstruction] at hi

/-- Everything a command can do: in phase FAULT it is ignored; it takes a fault, never ILLEGAL_OPCODE; a construction
command makes an instance; ABSORB in ACTIVE absorbs; FINISH in ACTIVE with the right `rl` finishes. -/
theorem exec_cases (i : Instr) (s : State) :
    (s.phase = .fault ∧ exec i s = .next s) ∨
    (∃ c, s.phase ≠ .fault ∧ c ≠ .noFault ∧ c ≠ .illegalOpcode ∧ exec i s = .next (takeFault c s)) ∨
    (∃ nn kk sl il key salt info, i.isConstruction = true ∧ s.phase ≠ .fault ∧
      paramsInRange nn kk sl il = true ∧
      (i.WellFormed = true → key.length = kk.toNat) ∧
      exec i s = .next (if 0 < kk.toNat then absorbBody (keyBlock key) (newInstance nn kk salt info s)
        else newInstance nn kk salt info s)) ∨
    (∃ len data, i = .absorb len data ∧ s.phase = .active ∧ exec i s = .next (absorbBody data s)) ∨
    (∃ rl, i = .finish rl ∧ s.phase = .active ∧ rl.toNat = s.outputLength.toNat ∧
      exec i s = .next (finishBody s)) := by
  cases hc : i.isConstruction with
  | true =>
    obtain ⟨nn, kk, sl, il, key, salt, info, he, _, hw⟩ := exec_construction i hc
    rw [he]
    by_cases hp : s.phase = .fault
    · exact .inl ⟨hp, by rw [construct_ignored _ _ _ _ _ _ _ _ hp]⟩
    · cases hr : paramsInRange nn kk sl il with
      | false =>
        exact .inr (.inl ⟨.paramRange, hp, by decide, by decide,
          by rw [construct_rejected _ _ _ _ _ _ _ _ hp hr]⟩)
      | true =>
        exact .inr (.inr (.inl ⟨nn, kk, sl, il, key, salt, info, rfl, hp, hr, fun h => (hw h hr).1,
          by rw [construct_accepted _ _ _ _ _ _ _ _ hp hr]⟩))
  | false =>
    cases i with
    | init nn => simp [Instr.isConstruction] at hc
    | initMac nn kk key => simp [Instr.isConstruction] at hc
    | initKdf nn kk sl il key salt info => simp [Instr.isConstruction] at hc
    | absorb len data =>
      rcases execAbsorb_cases len data s with ⟨hp, h⟩ | ⟨hp, h⟩ | ⟨hp, h⟩ | ⟨hp, h⟩
      · exact .inl ⟨hp, h⟩
      · exact .inr (.inl ⟨.noInstance, by rw [hp]; decide, by decide, by decide, h⟩)
      · exact .inr (.inl ⟨.useAfterFinish, by rw [hp]; decide, by decide, by decide, h⟩)
      · exact .inr (.inr (.inr (.inl ⟨len, data, rfl, hp, h⟩)))
    | finish rl =>
      rcases execFinish_cases rl s with ⟨hp, h⟩ | ⟨hp, h⟩ | ⟨hp, h⟩ | ⟨hp, hl, h⟩ | ⟨hp, hl, h⟩
      · exact .inl ⟨hp, h⟩
      · exact .inr (.inl ⟨.noInstance, by rw [hp]; decide, by decide, by decide, h⟩)
      · exact .inr (.inl ⟨.useAfterFinish, by rw [hp]; decide, by decide, by decide, h⟩)
      · exact .inr (.inr (.inr (.inr ⟨rl, rfl, hp, hl, h⟩)))
      · exact .inr (.inl ⟨.outlenMismatch, by rw [hp]; decide, by decide, by decide, h⟩)

/-- An accepted construction command leaves phase ACTIVE. -/
theorem construct_phase (nn kk sl il : Byte) (key salt info : List Byte) (s : State)
    (hp : s.phase ≠ .fault) (hr : paramsInRange nn kk sl il = true) :
    (construct nn kk sl il key salt info s).phase = .active := by
  rw [construct_accepted _ _ _ _ _ _ _ _ hp hr]; split <;> simp

/-- No command touches CS. -/
theorem exec_cs (i : Instr) (s t : State) (h : exec i s = .next t) : t.cs = s.cs := by
  rcases exec_cases i s with ⟨_, e⟩ | ⟨_, _, _, _, e⟩ | ⟨_, _, _, _, _, _, _, _, _, _, _, e⟩ | ⟨_, _, _, _, e⟩ | ⟨_, _, _, _, e⟩ <;>
    rw [e] at h <;> cases h
  · rfl
  · rfl
  · split <;> simp
  · simp
  · simp

/-- Every command has a next state. -/
theorem exec_next (i : Instr) (s : State) : ∃ t, exec i s = .next t := by
  rcases exec_cases i s with ⟨_, e⟩ | ⟨_, _, _, _, e⟩ | ⟨_, _, _, _, _, _, _, _, _, _, _, e⟩ | ⟨_, _, _, _, e⟩ | ⟨_, _, _, _, e⟩ <;>
    exact ⟨_, e⟩

/-- Every command keeps the form of the buffer's cells. -/
theorem exec_buf_wf (i : Instr) (s t : State) (hw : s.buf.wf = true) (h : exec i s = .next t) :
    t.buf.wf = true := by
  rcases exec_cases i s with ⟨_, e⟩ | ⟨_, _, _, _, e⟩ | ⟨_, _, _, _, _, _, _, _, _, _, _, e⟩ | ⟨_, _, _, _, e⟩ | ⟨_, _, _, _, e⟩ <;>
    rw [e] at h <;> cases h
  · exact hw
  · exact hw
  · split
    · exact absorbBody_buf_wf _ _ hw
    · exact hw
  · exact absorbBody_buf_wf _ _ hw
  · exact finishBody_buf_wf _ hw

theorem pushByte_setStream (s : State) (b : Byte) (c : List Byte) :
    pushByte (setStream c s) b = setStream c (pushByte s b) := by
  rcases pushByte_cases s b with ⟨hn, e⟩ | ⟨hn, e⟩
  · rw [e, pushByte_room (setStream c s) b hn]; rfl
  · rw [e, pushByte_full (setStream c s) b hn]; rfl

theorem absorbBody_setStream (data : List Byte) (s : State) (c : List Byte) :
    absorbBody data (setStream c s) = setStream c (absorbBody data s) := by
  induction data generalizing s with
  | nil => rfl
  | cons b data ih => rw [absorbBody_cons, pushByte_setStream, ih]; rfl

theorem construct_setStream (nn kk sl il : Byte) (key salt info : List Byte) (s : State) (c : List Byte) :
    construct nn kk sl il key salt info (setStream c s) =
      setStream c (construct nn kk sl il key salt info s) := by
  by_cases hp : s.phase = .fault
  · rw [construct_ignored _ _ _ _ _ _ _ s hp]
    exact construct_ignored _ _ _ _ _ _ _ _ hp
  · cases hr : paramsInRange nn kk sl il with
    | false =>
      rw [construct_rejected _ _ _ _ _ _ _ s hp hr]
      exact construct_rejected _ _ _ _ _ _ _ _ hp hr
    | true =>
      rw [construct_accepted _ _ _ _ _ _ _ s hp hr]
      refine (construct_accepted _ _ _ _ _ _ _ (setStream c s) hp hr).trans ?_
      split
      · exact absorbBody_setStream _ (newInstance nn kk salt info s) c
      · rfl

/-- A command does the same whatever stands on CS. -/
theorem exec_setStream (i : Instr) (s t : State) (c : List Byte) (h : exec i s = .next t) :
    exec i (setStream c s) = .next (setStream c t) := by
  cases hc : i.isConstruction with
  | true =>
    obtain ⟨nn, kk, sl, il, key, salt, info, he, _⟩ := exec_construction i hc
    rw [he] at h ⊢
    cases h
    rw [construct_setStream]
  | false =>
    cases i with
    | init nn => simp [Instr.isConstruction] at hc
    | initMac nn kk key => simp [Instr.isConstruction] at hc
    | initKdf nn kk sl il key salt info => simp [Instr.isConstruction] at hc
    | absorb len data =>
      show execAbsorb len data (setStream c s) = _
      have h : execAbsorb len data s = .next t := h
      rcases execAbsorb_cases len data s with ⟨hp, k⟩ | ⟨hp, k⟩ | ⟨hp, k⟩ | ⟨hp, k⟩ <;>
        rw [k] at h <;> injection h with h <;> subst h <;>
        simp only [execAbsorb, setStream_phase, hp, absorbBody_setStream] <;> rfl
    | finish rl =>
      show execFinish rl (setStream c s) = _
      have h : execFinish rl s = .next t := h
      rcases execFinish_cases rl s with ⟨hp, k⟩ | ⟨hp, k⟩ | ⟨hp, k⟩ | ⟨hp, hl, k⟩ | ⟨hp, hl, k⟩ <;>
        rw [k] at h <;> injection h with h <;> subst h
      · simp only [execFinish, setStream_phase, hp]
      · simp only [execFinish, setStream_phase, hp]; rfl
      · simp only [execFinish, setStream_phase, hp]; rfl
      · simp only [execFinish, setStream_phase, setStream_outputLength, hp, hl, if_true]; rfl
      · simp only [execFinish, setStream_phase, setStream_outputLength, hp, hl, if_false]; rfl

end Sys2Proof.Machine
end

