-- ==== Sys2Proof/Laws/PerInstr.lean ====
section
/-! SUPPORT. The statements made for each command: the length of its frame (spec/30_encoding.md R82), and its first byte,
which alone selects the format (R89). -/

namespace Sys2Proof.Laws

open Sys2Proof.Machine

/-- A command's frame is as long as its header plus the payload its length fields announce, which is none where a header
field is out of range (R82, R89). -/
def FrameLength.Statement (i : Instr) : Prop :=
  i.WellFormed = true →
    (encode i).length =
      headerLength i.header + bif headerInRange i.header then payloadLength i.header else 0

theorem FrameLength.init (nn : Byte) : FrameLength.Statement (.init nn) := by
  intro _
  cases hr : headerInRange (.init nn) <;> simp [encode, Instr.header, headerLength, payloadLength, hr]

theorem FrameLength.initMac (nn kk : Byte) (key : List Byte) : FrameLength.Statement (.initMac nn kk key) := by
  intro h
  simp only [Instr.WellFormed] at h
  simp only [encode, Instr.header, headerLength, payloadLength]
  cases hr : headerInRange (.initMac nn kk) <;> (simp [hr] at h ⊢; simp [h]; try omega)

theorem FrameLength.initKdf (nn kk sl il : Byte) (key salt info : List Byte) :
    FrameLength.Statement (.initKdf nn kk sl il key salt info) := by
  intro h
  simp only [Instr.WellFormed] at h
  simp only [encode, Instr.header, headerLength, payloadLength]
  cases hr : headerInRange (.initKdf nn kk sl il) <;> (simp [hr] at h ⊢; simp [h]; try omega)

theorem FrameLength.absorb (len : Word) (data : List Byte) : FrameLength.Statement (.absorb len data) := by
  intro h
  simp [Instr.WellFormed] at h
  simp [encode, Instr.header, headerLength, payloadLength, headerInRange, h]
  omega

theorem FrameLength.finish (rl : Byte) : FrameLength.Statement (.finish rl) := by
  intro _
  cases hr : headerInRange (.finish rl) <;> simp [encode, Instr.header, headerLength, payloadLength, hr]

/-- The opcode byte of each command (R82): spec/opcode_table.json's match value. -/
def opcodeOf : Header → Byte
  | .init _ => 0x01#8
  | .initMac _ _ => 0x02#8
  | .initKdf _ _ _ _ => 0x03#8
  | .absorb _ => 0x04#8
  | .finish _ => 0x05#8

/-- A command's frame begins with its opcode byte, a value from 1 to 5 (R82, R90). -/
def OpcodeByte.Statement (i : Instr) : Prop :=
  (encode i).head? = some (opcodeOf i.header) ∧ 1 ≤ (opcodeOf i.header).toNat ∧ (opcodeOf i.header).toNat ≤ 5

theorem OpcodeByte.init (nn : Byte) : OpcodeByte.Statement (.init nn) :=
  ⟨rfl, by simp [Instr.header, opcodeOf], by simp [Instr.header, opcodeOf]⟩

theorem OpcodeByte.initMac (nn kk : Byte) (key : List Byte) : OpcodeByte.Statement (.initMac nn kk key) :=
  ⟨rfl, by simp [Instr.header, opcodeOf], by simp [Instr.header, opcodeOf]⟩

theorem OpcodeByte.initKdf (nn kk sl il : Byte) (key salt info : List Byte) :
    OpcodeByte.Statement (.initKdf nn kk sl il key salt info) :=
  ⟨rfl, by simp [Instr.header, opcodeOf], by simp [Instr.header, opcodeOf]⟩

theorem OpcodeByte.absorb (len : Word) (data : List Byte) : OpcodeByte.Statement (.absorb len data) :=
  ⟨rfl, by simp [Instr.header, opcodeOf], by simp [Instr.header, opcodeOf]⟩

theorem OpcodeByte.finish (rl : Byte) : OpcodeByte.Statement (.finish rl) :=
  ⟨rfl, by simp [Instr.header, opcodeOf], by simp [Instr.header, opcodeOf]⟩

end Sys2Proof.Laws
end

