-- ==== Sys2Proof/Laws/Step.lean ====
section
/-! SUPPORT. Everything `step` can do, said once. -/

namespace Sys2Proof.Machine

@[simp] theorem waitReason_nil : waitReason [] = .sequenceExhausted := rfl

@[simp] theorem waitReason_cons (b : Byte) (bs : List Byte) : waitReason (b :: bs) = .incompleteFrame := rfl

theorem waitReason_eq (cs : List Byte) :
    waitReason cs = if cs = [] then .sequenceExhausted else .incompleteFrame := by cases cs <;> simp

theorem fetch_parsing (s : State) (h : s.phase ≠ .fault) : fetch s = fetchFrame s := by
  cases hp : s.phase <;> simp_all [fetch]

/-- In phase FAULT a step discards CS. -/
theorem step_fault (s : State) (h : s.phase = .fault) : step s = .next (setStream [] s) := by
  simp [step, fetch, h, discardStream]

/-- Outside phase FAULT a step waits for a frame, takes the illegal-opcode fault, or executes the command of the next frame
on the state past it. -/
theorem step_cases (s : State) :
    (s.phase = .fault ∧ step s = .next (setStream [] s)) ∨
    (s.phase ≠ .fault ∧ step s = .fault (waitReason s.cs)) ∨
    (∃ op rest, s.phase ≠ .fault ∧ decodeHeader s.cs = .illegal op rest ∧
      step s = .next (takeFault .illegalOpcode (setStream rest s))) ∨
    (∃ h rest i rest', s.phase ≠ .fault ∧ decodeHeader s.cs = .header h rest ∧
      decodePayload (payloadAwaited s.phase h) h rest = .instr i rest' ∧
      step s = exec i (setStream rest' s)) := by
  by_cases hp : s.phase = .fault
  · exact .inl ⟨hp, step_fault s hp⟩
  · refine .inr ?_
    rw [step, fetch_parsing s hp, fetchFrame]
    cases hh : decodeHeader s.cs with
    | incomplete => exact .inl ⟨hp, rfl⟩
    | illegal op rest => exact .inr (.inl ⟨op, rest, hp, rfl, rfl⟩)
    | header h rest =>
      cases hd : decodePayload (payloadAwaited s.phase h) h rest with
      | incomplete => exact .inl ⟨hp, by simp only [hd]⟩
      | illegal op r => exact absurd hd (decodePayload_ne_illegal _ _ _ _ _)
      | instr i r => exact .inr (.inr ⟨h, rest, i, r, hp, rfl, hd, by simp only [hd]⟩)

/-- With nothing on CS there is no step outside phase FAULT. -/
theorem step_empty (s : State) (hp : s.phase ≠ .fault) (hc : s.cs = []) :
    step s = .fault .sequenceExhausted := by
  rw [step, fetch_parsing s hp, fetchFrame, hc]
  rfl

/-- A step outside phase FAULT takes at least one byte from CS. -/
theorem step_shortens (s t : State) (hp : s.phase ≠ .fault) (h : step s = .next t) :
    t.cs.length < s.cs.length := by
  rcases step_cases s with ⟨h0, _⟩ | ⟨_, e⟩ | ⟨op, r, _, hd, e⟩ | ⟨hd, r, i, r', _, hh, hpay, e⟩
  · exact absurd h0 hp
  · rw [e] at h
    cases h
  · rw [e] at h
    cases h
    rw [takeFault_cs, setStream_cs, decodeHeader_illegal_rest _ _ _ hd]
    simp
  · rw [e] at h
    rw [exec_cs _ _ _ h, setStream_cs]
    exact Nat.lt_of_le_of_lt (decodePayload_rest_le _ _ _ _ _ hpay) (decodeHeader_shortens _ _ _ hh)

/-- In phase ACTIVE, and for every command but ABSORB in the others, the frame ends where the decoder says it does. -/
theorem payloadAwaited_eq (ph : Phase) (h : Header) (hne : (∀ len, h ≠ .absorb len) ∨ ph = .active) :
    payloadAwaited ph h = headerInRange h := by
  cases h with
  | absorb len =>
    rcases hne with hne | rfl
    · exact absurd rfl (hne len)
    · rfl
  | init nn => rfl
  | initMac nn kk => rfl
  | initKdf nn kk sl il => rfl
  | finish rl => rfl

/-- A run of `k + 1` steps whose first has a next state is a run of `k` steps from there, on any machine. -/
theorem core_run_succ (M : Host.Core) (k : Nat) (s t : M.State) (h : M.step s = .next t) :
    M.run (k + 1) s = M.run k t := by
  simp only [Host.Core.run, h]

/-- `core_run_succ` for this machine. -/
theorem run_succ_next (k : Nat) (s t : State) (h : step s = .next t) :
    Host.Core.run Sys2Proof.core (k + 1) s = Host.Core.run Sys2Proof.core k t :=
  core_run_succ Sys2Proof.core k s t h

end Sys2Proof.Machine
end

