-- ==== Sys2Proof/Laws/Run.lean ====
section
/-! SUPPORT. A run on the bytes waiting on CS, step by step, and the classes of its outcomes. -/

namespace Sys2Proof.Safety

open Sys2Proof.Machine

@[simp] theorem drain_zero (s : State) : drain 0 s = s := rfl

theorem drain_succ_next (k : Nat) (s t : State) (h : step s = .next t) : drain (k + 1) s = drain k t := by
  simp only [drain, h]

theorem drain_succ_fault (k : Nat) (s : State) (r : Fault) (h : step s = .fault r) : drain (k + 1) s = s := by
  simp only [drain, h]

/-- Where a run comes to rest it stays. -/
theorem drain_stopped (k : Nat) (s : State) (r : Fault) (h : step s = .fault r) : drain k s = s := by
  cases k with
  | zero => rfl
  | succ k => exact drain_succ_fault k s r h

/-- In phase FAULT a run discards CS, in one step or in many. -/
theorem drain_fault (k : Nat) (s : State) (hp : s.phase = .fault) : drain (k + 1) s = setStream [] s := by
  induction k generalizing s with
  | zero => rw [drain_succ_next 0 s _ (step_fault s hp), drain_zero]
  | succ k ih => rw [drain_succ_next (k + 1) s _ (step_fault s hp), ih (setStream [] s) hp]; rfl

/-- A next state outside phase FAULT is classed by its own phase. -/
theorem classify_next (s t : State) (hp : s.phase ≠ .fault) :
    classify s (.next t) = if t.phase = .fault then .fault t.cause else .next t := by
  simp [classify, hp]

/-- From a state already faulted every next state is classed as ignored. -/
theorem classify_ignored (s t : State) (hp : s.phase = .fault) : classify s (.next t) = .ignored := by
  simp [classify, hp]

@[simp] theorem classify_incompleteFrame (s : State) : classify s (.fault .incompleteFrame) = .stuck := rfl

@[simp] theorem classify_sequenceExhausted (s : State) : classify s (.fault .sequenceExhausted) = .ended := rfl

end Sys2Proof.Safety
end

