-- ==== Sys2Proof/Tests/Slice0.lean ====
section
/-! SUPPORT. Tests of the model's own, each expected result from spec/95_test_vectors.md or from a rule's own example, and a
witness for the hypotheses of every statement that has some. -/

namespace Sys2Proof.Tests

open Sys2Proof.Machine Sys2Proof.Safety

/-! The states the tests start from, every field a plain value. -/

/-- No instance: what reset leaves, the unspecified registers at values of the tests' own. -/
def idle : State where
  h := #v[1, 2, 3, 4, 5, 6, 7, 8]
  t0 := 9
  t1 := 10
  f0 := 11
  f1 := 12
  buf := []
  n := 13
  outputLength := 14
  phase := .idle
  cause := .noFault
  cs := []
  ds := []

/-- `H0(64)`, the chaining value after `INIT 64` (V-P1). -/
def h64 : Vector Word 8 :=
  #v[0x6a09e667f2bdc948, 0xbb67ae8584caa73b, 0x3c6ef372fe94f82b, 0xa54ff53a5f1d36f1,
      0x510e527fade682d1, 0x9b05688c2b3e6c1f, 0x1f83d9abfb41bd6b, 0x5be0cd19137e2179]

/-- An instance of `INIT 64` that has absorbed "abc" (program P1, after command 2). -/
def active : State where
  h := h64
  t0 := 0
  t1 := 0
  f0 := 0
  f1 := 0
  buf := [(0, 0x61), (1, 0x62), (2, 0x63)]
  n := 3
  outputLength := 64
  phase := .active
  cause := .noFault
  cs := []
  ds := []

/-- `active` with a full buffer, of bytes `00` (V-A8). -/
def activeFull : State := { active with buf := (List.range 128).map fun a => (a, 0), n := 128 }

/-- `active` with nothing absorbed. -/
def activeEmpty : State := { active with buf := [], n := 0 }

/-- A finished instance. -/
def consumed : State :=
  { activeFull with f0 := Word.allOnes, phase := .consumed, ds := [0xaa], t0 := 128 }

/-- `active` after a fault. -/
def faulted : State := { active with phase := .fault, cause := .paramRange }

/-- What a test looks at in the outcome of a step. -/
def look {α : Type} (f : State → α) : Host.Outcome State Fault Refusal → Option α
  | .next s => some (f s)
  | .fault _ => none
  | .refused _ => none

/-! Well-formedness: each check refuses a term. -/

theorem test_wf_init : Instr.WellFormed (.init 0x41) = true := by decide
theorem test_wf_initMac : Instr.WellFormed (.initMac 0x20 3 [0x6b, 0x65, 0x79]) = true := by decide
theorem test_illformed_initMac_short_key : Instr.WellFormed (.initMac 0x20 4 [0x6b, 0x65, 0x79]) = false := by decide
theorem test_illformed_initMac_key_after_bad_header : Instr.WellFormed (.initMac 0 1 [0x6b]) = false := by decide
theorem test_illformed_initKdf_key : Instr.WellFormed (.initKdf 64 1 1 1 [] [2] [3]) = false := by decide
theorem test_illformed_initKdf_salt : Instr.WellFormed (.initKdf 64 1 1 1 [1] [] [3]) = false := by decide
theorem test_illformed_initKdf_info : Instr.WellFormed (.initKdf 64 1 1 1 [1] [2] []) = false := by decide
theorem test_illformed_initKdf_key_after_bad_header :
    Instr.WellFormed (.initKdf 64 1 17 0 [1] [] []) = false := by decide
theorem test_illformed_initKdf_salt_after_bad_header :
    Instr.WellFormed (.initKdf 64 0 17 0 [] [1] []) = false := by decide
theorem test_illformed_initKdf_info_after_bad_header :
    Instr.WellFormed (.initKdf 64 0 17 1 [] [] [1]) = false := by decide
theorem test_illformed_absorb : Instr.WellFormed (.absorb 4 [0x61, 0x62, 0x63]) = false := by decide

/-! Decoding: frames written out byte by byte (section 9, V-D; R82). -/

theorem test_decode_init : decode [0x01, 0x40] = .instr (.init 64) [] := by decide
theorem test_decode_init_then_finish : decode [0x01, 0x01, 0x05, 0x01] = .instr (.init 1) [0x05, 0x01] := by decide
theorem test_decode_initMac :
    decode [0x02, 0x20, 0x03, 0x6b, 0x65, 0x79] = .instr (.initMac 32 3 [0x6b, 0x65, 0x79]) [] := by decide
theorem test_decode_initMac_no_key : decode [0x02, 0x40, 0x00] = .instr (.initMac 64 0 []) [] := by decide
/-- V-X4: no key byte is awaited after a header out of range. -/
theorem test_decode_initMac_bad_header : decode [0x02, 0x40, 0x41] = .instr (.initMac 64 65 []) [] := by decide
/-- R82, R85: key, then salt, then info. -/
theorem test_decode_initKdf :
    decode [0x03, 0x40, 0x01, 0x02, 0x03, 0xa1, 0xb1, 0xb2, 0xc1, 0xc2, 0xc3] =
      .instr (.initKdf 64 1 2 3 [0xa1] [0xb1, 0xb2] [0xc1, 0xc2, 0xc3]) [] := by decide
theorem test_decode_initKdf_empty :
    decode [0x03, 0x40, 0x00, 0x00, 0x00] = .instr (.initKdf 64 0 0 0 [] [] []) [] := by decide
theorem test_decode_absorb :
    decode [0x04, 0x03, 0, 0, 0, 0, 0, 0, 0, 0x61, 0x62, 0x63] = .instr (.absorb 3 [0x61, 0x62, 0x63]) [] := by
  decide
/-- V-D: the length field `2c 01 00 00 00 00 00 00` is 300. -/
theorem test_decode_absorb_length :
    decodeHeader [0x04, 0x2c, 0x01, 0, 0, 0, 0, 0, 0, 0xee] = .header (.absorb 300) [0xee] := by decide
theorem test_decode_finish : decode [0x05, 0x40] = .instr (.finish 64) [] := by decide
theorem test_decode_illegal : ∀ b : Byte, decode [b] = .illegal b [] ↔ (b = 0 ∨ 5 < b.toNat) := by
  decide +kernel

theorem test_encode_init : encode (.init 64) = [0x01, 0x40] := by decide
theorem test_encode_initMac : encode (.initMac 32 3 [0x6b, 0x65, 0x79]) = [0x02, 0x20, 0x03, 0x6b, 0x65, 0x79] := by decide
theorem test_encode_initKdf :
    encode (.initKdf 64 1 1 1 [0xa1] [0xb1] [0xc1]) = [0x03, 0x40, 0x01, 0x01, 0x01, 0xa1, 0xb1, 0xc1] := by decide
theorem test_encode_absorb : encode (.absorb 300 []) = [0x04, 0x2c, 0x01, 0, 0, 0, 0, 0, 0] := by decide
theorem test_encode_finish : encode (.finish 64) = [0x05, 0x40] := by decide

/-- The opcode table's words, every later bit of the frame zero. -/
theorem test_table_words :
    (List.range 7).map (decodeTableWord 8) =
      [none, some (.init 0), some (.initMac 0 0 []), some (.initKdf 0 0 0 0 [] [] []), some (.absorb 0 []),
        some (.finish 0), none] := by decide
theorem test_table_first_byte_is_low : decodeTableWord 16 0x4005 = some (.finish 0x40) := by decide
theorem test_table_word_runs_from_reset :
    step (State.reset.withFetchWord 16 0x4001) = exec (.init 0x40) State.reset := by rfl

/-! Constants and pure functions. -/

/-- R105: each row of SIGMA is a permutation; rows 10 and 11 repeat rows 0 and 1. -/
theorem test_sigma_rows :
    (∀ r : Fin 12, ∀ k : Fin 16, ∃ j : Fin 16, sigma[r][j] = k) ∧ sigma[10] = sigma[0] ∧ sigma[11] = sigma[1] := by
  decide +kernel
/-- V-G5, the example of R152. -/
theorem test_mix :
    mixWords 0xffffffffffffffff 1 0x8000000000000000 0x0123456789abcdef 0xffffffffffffffff 2 =
      (0xdcba99f6543210ff, 0xf8028a13fde2eaf0, 0xa0bbdcffaac36586, 0xaa67aaeeabe6aaee) := by decide +kernel
/-- V-G2: x is not y. -/
theorem test_mix_x :
    mixWords 0 0 0 0 1 0 = (0x101, 0x0202000200020200, 0x0101000100010000, 0x0101000000010000) := by decide +kernel
/-- V-F2: `f[1]` enters F. -/
theorem test_compress_f1 :
    compressF (Vector.replicate 8 0) (zeros 128) 0 0 0 Word.allOnes =
      #v[0x9319f600bc714b0c, 0x246ad4e52f0d39d2, 0x1e391c67ae0f0793, 0xf131ae17ac111fa4,
      0x7e7fc0cd3a8d8607, 0x3b57abaa94af1df4, 0x62cee24353d9eb07, 0x7ba65c93f93359d3] := by decide +kernel
/-- V-P3: short salt and full info at their offsets. -/
theorem test_parameter_block :
    pBuild 32 16 [0x73, 0x61, 0x6c, 0x74] (List.replicate 16 0xff) =
      [32, 16, 1, 1] ++ zeros 28 ++ [0x73, 0x61, 0x6c, 0x74] ++ zeros 12 ++ List.replicate 16 0xff := by decide
/-- V-C5, V-C7. -/
theorem test_counter_carry :
    (ctrAdd 128 { active with t0 := 0xffffffffffffff80, t1 := 5 }).t0 = 0 ∧
      (ctrAdd 128 { active with t0 := 0xffffffffffffff80, t1 := 5 }).t1 = 6 ∧
      (ctrAdd 128 { active with t0 := 0xffffffffffffff80, t1 := 0xffffffffffffffff }).t1 = 0 := by decide
/-- R31: STATUS after V-X6, `0x33`, and in phase ACTIVE, `0x01`. -/
theorem test_status :
    status { consumed with phase := .fault, cause := .useAfterFinish } = 0x33 ∧ status active = 0x01 := by decide
/-- R53, R54: a word written is read back, its least significant byte at the lowest index. -/
theorem test_word_access :
    readWord (writeWord [] 120 0x0807060504030201) 120 = 0x0807060504030201 ∧
      readByte (writeWord [] 120 0x0807060504030201) 120 = 1 := by decide

/-! One step of each command. -/

/-- V-P1 and the example of R125. -/
theorem test_init :
    look (fun t => (t.h, t.t0, t.n, t.outputLength, t.phase)) (exec (.init 64) idle) =
      some (h64, 0, 0, 64, .active) := by decide +kernel
/-- V-X3: `nn` = 65. -/
theorem test_init_range : exec (.init 65) active = .next { active with phase := .fault, cause := .paramRange } := by
  rfl
/-- V-P2 and V-K4: the key "key" waits in the buffer. -/
theorem test_initMac :
    look (fun t => (t.h[0], t.t0, t.n, t.outputLength, wholeBlock t.buf))
        (exec (.initMac 32 3 [0x6b, 0x65, 0x79]) activeFull) =
      some (0x6a09e667f2bdca28, 0, 128, 32, [0x6b, 0x65, 0x79] ++ zeros 125) := by decide +kernel
/-- V-X13: `kk` = 0 is legal. -/
theorem test_initMac_no_key : exec (.initMac 64 0 []) idle = exec (.init 64) idle := by rfl
/-- The example of R127 (V-P3). -/
theorem test_initKdf :
    look (fun t => (t.h, t.n))
        (exec (.initKdf 32 16 4 16 [0, 1, 2, 3, 4, 5, 6, 7, 8, 9, 10, 11, 12, 13, 14, 15] [0x73, 0x61, 0x6c, 0x74]
          [0x30, 0x31, 0x32, 0x33, 0x34, 0x35, 0x36, 0x37, 0x38, 0x39, 0x61, 0x62, 0x63, 0x64, 0x65, 0x66]) idle) =
      some (#v[0x6a09e667f2bdd928, 0xbb67ae8584caa73b, 0x3c6ef372fe94f82b, 0xa54ff53a5f1d36f1,
      0x510e527fd98ae3a2, 0x9b05688c2b3e6c1f, 0x28b5ec9fc8738c5b, 0x3d85a97a711f1841], 128) := by decide +kernel
/-- V-X5: `sl` = 17. -/
theorem test_initKdf_range :
    look (fun t => status t) (exec (.initKdf 32 0 17 0 [] [] []) consumed) = some 0x13 := by decide +kernel
/-- V-A3: a full block is held, not compressed. -/
theorem test_absorb_holds_block :
    look (fun t => (t.h, t.n, t.t0)) (exec (.absorb 125 (List.replicate 125 0)) active) = some (h64, 128, 0) := by
  decide +kernel
/-- V-A8: the 129th byte compresses the block and becomes `buf[0]`. -/
theorem test_absorb_compresses :
    look (fun t => (t.h, t.n, t.t0, readByte t.buf 0)) (exec (.absorb 1 [1]) activeFull) =
      some (#v[0x9064f7302f5ebcfd, 0x937c2d2ccecab72e, 0x868db5bb2c6f96b7, 0xf9d551287159c8db,
      0x852d162897b5cf8d, 0x94191973d35ac26a, 0x28fb104d99c99929, 0x3d65414e362955cc], 1, 0x80, 1) := by decide +kernel
/-- V-A1, V-F1: the digest of "abc". -/
theorem test_finish :
    look (fun t => (t.ds, t.phase, t.t0)) (exec (.finish 64) active) = some (
    [0xba, 0x80, 0xa5, 0x3f, 0x98, 0x1c, 0x4d, 0x0d, 0x6a, 0x27, 0x97, 0xb6, 0x9f, 0x12, 0xf6, 0xe9,
    0x4c, 0x21, 0x2f, 0x14, 0x68, 0x5a, 0xc4, 0xb7, 0x4b, 0x12, 0xbb, 0x6f, 0xdb, 0xff, 0xa2, 0xd1, 0x7d,
    0x87, 0xc5, 0x39, 0x2a, 0xab, 0x79, 0x2d, 0xc2, 0x52, 0xd5, 0xde, 0x45, 0x33, 0xcc, 0x95, 0x18, 0xd3,
    0x8a, 0xa8, 0xdb, 0xf1, 0x92, 0x5a, 0xb9, 0x23, 0x86, 0xed, 0xd4, 0x00, 0x99, 0x23], .consumed, 3) := by
  decide +kernel
/-- V-X16: a wrong `rl` emits nothing. -/
theorem test_finish_mismatch : exec (.finish 32) active = .next { active with phase := .fault, cause := .outlenMismatch } := by
  rfl

/-! The step: V-X1 (ABSORB in IDLE, its data left on CS), V-X9, R249, R56. -/

theorem test_step_absorb_idle :
    step { idle with cs := [0x04, 0x03, 0, 0, 0, 0, 0, 0, 0, 0x61, 0x62, 0x63] } =
      .next { idle with phase := .fault, cause := .noInstance, cs := [0x61, 0x62, 0x63] } := by rfl
theorem test_step_illegal :
    step { active with cs := [0x06, 0x01] } =
      .next { active with phase := .fault, cause := .illegalOpcode, cs := [0x01] } := by rfl
theorem test_step_fault : step { faulted with cs := [0x01, 0x40] } = .next faulted := by rfl
theorem test_step_waits : step { active with cs := [0x04, 0x03, 0, 0] } = .fault .incompleteFrame := by rfl
theorem test_reset_drops_waiting_frames : (hostReset { active with cs := [0x05, 0x40] }).cs = [] := by rfl
theorem test_step_nothing_sent : step State.reset = .fault .sequenceExhausted := by rfl

/-! Witnesses: for every statement with hypotheses, states and operands that meet them, at the boundaries of each clause. -/

/-- `StepRunsTheDecodedCommand`: a construction command, an ABSORB in ACTIVE, an ABSORB turned away whose data has not
arrived, or has in part. -/
theorem witness_step_runs :
    (idle.phase ≠ .fault ∧ decode [0x01, 0x40] = .instr (.init 64) [] ∧ ∀ len data, Instr.init 64 ≠ .absorb len data) ∧
    (active.phase = .active ∧ decode [0x04, 0x01, 0, 0, 0, 0, 0, 0, 0, 0xee] = .instr (.absorb 1 [0xee]) []) ∧
    (idle.phase ≠ .fault ∧ idle.phase ≠ .active) ∧ (consumed.phase ≠ .fault ∧ consumed.phase ≠ .active) ∧
    decodeHeader [0x04, 0x02, 0, 0, 0, 0, 0, 0, 0] = .header (.absorb 2) [] ∧
    decodeHeader [0x04, 0x02, 0, 0, 0, 0, 0, 0, 0, 0xee] = .header (.absorb 2) [0xee] := by
  refine ⟨⟨by decide, by decide, fun _ _ h => by cases h⟩, by decide, by decide, by decide, by decide, by decide⟩

/-- `DecodeOfEncodedCommand`: each constructor at its longest in-range strings, at its shortest, and out of range. -/
theorem witness_decode_of_encoded :
    Instr.WellFormed (.init 0) = true ∧ Instr.WellFormed (.init 255) = true ∧
    Instr.WellFormed (.initMac 64 64 (List.replicate 64 0xff)) = true ∧ Instr.WellFormed (.initMac 1 0 []) = true ∧
    Instr.WellFormed (.initMac 64 65 []) = true ∧
    Instr.WellFormed (.initKdf 1 64 16 16 (List.replicate 64 1) (List.replicate 16 2) (List.replicate 16 3)) = true ∧
    Instr.WellFormed (.initKdf 65 64 16 16 [] [] []) = true ∧
    Instr.WellFormed (.absorb 0 []) = true ∧ Instr.WellFormed (.absorb 300 (List.replicate 300 7)) = true ∧
    Instr.WellFormed (.finish 0) = true ∧ Instr.WellFormed (.finish 255) = true := by decide +kernel

/-- `DecodedBytesAreTheFrame`. -/
theorem witness_decoded_bytes :
    decode [0x02, 0x20, 0x01, 0x6b, 0xff] = .instr (.initMac 32 1 [0x6b]) [0xff] := by decide

/-- `IllegalOpcodeFaults`: the bytes beside the legal range, and the legal range's ends, where a step has a next state. -/
theorem witness_illegal_opcode :
    active.phase ≠ .fault ∧ ((0x00#8).toNat < 1 ∨ 5 < (0x00#8).toNat) ∧ ((0x06#8).toNat < 1 ∨ 5 < (0x06#8).toNat) ∧
    ((0xff#8).toNat < 1 ∨ 5 < (0xff#8).toNat) ∧
    (1 ≤ (0x01#8).toNat ∧ (0x01#8).toNat ≤ 5) ∧ (1 ≤ (0x05#8).toNat ∧ (0x05#8).toNat ≤ 5) ∧
    active.cause ≠ .illegalOpcode ∧
    (look (fun t => t.cause) (step { active with cs := [0x01, 0x00] })).isSome = true ∧
    (look (fun t => t.cause) (step { active with cs := [0x05, 0x41] })).isSome = true := by decide +kernel

/-- `IncompleteFrameHasNoStep`: one byte short of a frame, an ABSORB one byte short in ACTIVE, a turned-away ABSORB one
byte short of its header, and no byte at all. -/
theorem witness_incomplete_frame :
    (idle.phase ≠ .fault ∧ Instr.WellFormed (.initMac 1 1 [7]) = true ∧ 3 < (encode (.initMac 1 1 [7])).length) ∧
    (active.phase = .active ∧ Instr.WellFormed (.absorb 2 [7, 8]) = true ∧ 10 < (encode (.absorb 2 [7, 8])).length) ∧
    (8 < (encode (.absorb 2 [7, 8])).length ∧ 8 < 9) ∧ 0 < (encode (.finish 1)).length ∧
    [0x05] = (encode (.finish 1)).take 1 ∧ [] = (encode (.finish 1)).take 0 := by decide

/-- `StreamOfFramesRunsAsCommands`: program P1's stream, and one that faults. -/
theorem witness_stream :
    (∀ i ∈ [Instr.init 64, .absorb 3 [0x61, 0x62, 0x63], .finish 64], i.WellFormed = true) ∧
    [Instr.init 64, .absorb 3 [0x61, 0x62, 0x63], .finish 64].flatMap encode =
      [0x01, 0x40, 0x04, 0x03, 0, 0, 0, 0, 0, 0, 0, 0x61, 0x62, 0x63, 0x05, 0x40] ∧
    (∀ i ∈ [Instr.init 0, .init 64], i.WellFormed = true) := by decide

/-- `FaultIsSticky`. -/
theorem witness_fault_sticky : faulted.phase = .fault ∧ 0 < 1 := by decide

/-- `InitEffect`, `ParamRangeFaults`: both ends of the range and the values beside them, in every phase that parses. -/
theorem witness_init :
    (idle.phase ≠ .fault ∧ active.phase ≠ .fault ∧ consumed.phase ≠ .fault) ∧
    (1 ≤ (1#8).toNat ∧ (1#8).toNat ≤ 64) ∧ (1 ≤ (64#8).toNat ∧ (64#8).toNat ≤ 64) ∧
    ((0#8).toNat = 0 ∨ 64 < (0#8).toNat) ∧ ((65#8).toNat = 0 ∨ 64 < (65#8).toNat) ∧ faulted.phase = .fault := by decide

/-- `InitMacEffect`, `InitKdfEffect`: the longest and the shortest key, salt and info. -/
theorem witness_init_mac_kdf :
    idle.phase ≠ .fault ∧ 1 ≤ (64#8).toNat ∧ (64#8).toNat ≤ 64 ∧
    (0 < (List.replicate 64 (1 : Byte)).length ∧ (List.replicate 64 (1 : Byte)).length ≤ 64) ∧
    (0 < [(1 : Byte)].length ∧ [(1 : Byte)].length ≤ 64) ∧ (([] : List Byte).length = 0 ∧ ([] : List Byte).length ≤ 64) ∧
    (List.replicate 16 (2 : Byte)).length ≤ 16 := by decide

/-- `ConstructionFrame`: each command with a next state; the three forms without a key. -/
theorem witness_construction_frame :
    (Instr.isConstruction (.init 64) = true ∧ ∃ t, exec (.init 64) active = .next t) ∧
    (Instr.isConstruction (.initMac 64 0 []) = true ∧ ∃ t, exec (.initMac 64 0 []) active = .next t) ∧
    (Instr.isConstruction (.initKdf 64 0 1 1 [] [7] [8]) = true ∧
      ∃ t, exec (.initKdf 64 0 1 1 [] [7] [8]) active = .next t) ∧
    (∃ t, exec (.initMac 64 1 [9]) active = .next t) :=
  ⟨⟨rfl, exec_next _ _⟩, ⟨rfl, exec_next _ _⟩, ⟨rfl, exec_next _ _⟩, exec_next _ _⟩

/-- `ReconstructionAbandonsTheInstance`: a keyed and an unkeyed command, from two different instances. -/
theorem witness_reconstruction :
    Instr.isConstruction (.initMac 64 1 [9]) = true ∧ Instr.WellFormed (.initMac 64 1 [9]) = true ∧
    active.phase ≠ .fault ∧ consumed.phase ≠ .fault ∧
    look (fun t => t.phase) (exec (.initMac 64 1 [9]) active) = some .active ∧
    look (fun t => t.phase) (exec (.initMac 64 1 [9]) consumed) = some .active ∧
    look (fun t => t.phase) (exec (.init 64) active) = some .active ∧
    look (fun t => t.phase) (exec (.init 64) idle) = some .active := by decide +kernel

/-- `AbsorbClosedForm`, `ChunkingInvariance`, `EmptyAbsorb`: the phases, and the block counts of R189's own checks. -/
theorem witness_absorb :
    active.phase = .active ∧ activeFull.phase = .active ∧ activeEmpty.phase = .active ∧ idle.phase = .idle ∧
    consumed.phase = .consumed ∧ activeEmpty.n.val + ([] : List Byte).length = 0 ∧
    fullBlocks (0 + 128) = 0 ∧ fullBlocks (0 + 129) = 1 ∧ fullBlocks (128 + 1) = 1 ∧ fullBlocks (100 + 100) = 1 ∧
    fullBlocks (0 + 300) = 2 := by decide

/-- `AbsorbFrame`: a next state in every phase; a cell the data does not reach; data that just fits. -/
theorem witness_absorb_frame :
    (∃ t, exec (.absorb 1 [7]) active = .next t) ∧ (∃ t, exec (.absorb 1 [7]) activeFull = .next t) ∧
    (∃ t, exec (.absorb 1 [7]) idle = .next t) ∧ (∃ t, exec (.absorb 1 [7]) faulted = .next t) ∧
    (∀ j, j < [(7 : Byte)].length → (active.n.val + j) % 128 ≠ (4 : Fin 128).val) ∧
    (∀ j, j < [(7 : Byte)].length → (activeFull.n.val + j) % 128 ≠ (1 : Fin 128).val) ∧
    active.n.val + (List.replicate 125 (7 : Byte)).length ≤ 128 ∧
    (0 < [(7 : Byte)].length ∧ [(7 : Byte)].length ≤ 0 + 128) ∧
    (1 < (List.replicate 129 (7 : Byte)).length ∧ (List.replicate 129 (7 : Byte)).length ≤ 1 + 128) ∧
    ¬ (List.replicate 129 (7 : Byte)).length ≤ 0 + 128 :=
  ⟨⟨_, rfl⟩, ⟨_, rfl⟩, ⟨_, rfl⟩, ⟨_, rfl⟩, by decide, by decide, by decide +kernel, by decide, by decide +kernel,
    by decide +kernel⟩

/-- `CounterAddition`: the ends of `k`, and a counter that is a multiple of 128 with and without a carry. -/
theorem witness_counter :
    0 ≤ 128 ∧ 128 ≤ 128 ∧ 128 ∣ counter { active with t0 := 0xffffffffffffff80 } ∧ 128 ∣ counter active := by decide +kernel

/-- `FinishEffect`, `MisuseFaults`: the right and a wrong `rl`, a partial, a full and an empty buffer. -/
theorem witness_finish :
    (active.phase = .active ∧ (64#8).toNat = active.outputLength.toNat) ∧
    (activeFull.phase = .active ∧ (64#8).toNat = activeFull.outputLength.toNat) ∧
    (activeEmpty.phase = .active ∧ (64#8).toNat = activeEmpty.outputLength.toNat) ∧
    (active.phase = .active ∧ (63#8).toNat ≠ active.outputLength.toNat) ∧
    (0 : Fin 128).val < active.n.val ∧ ¬ (3 : Fin 128).val < active.n.val ∧
    consumed.phase = .consumed ∧ idle.phase = .idle := by decide

/-- `FinishFrame`, `WhichCommandWritesWhat`, `FaultsArePrecise`: FINISH with a next state, in ACTIVE and where it faults. -/
theorem witness_finish_frame :
    (∃ t, exec (.finish 64) active = .next t ∧ t.phase = .consumed) ∧
    (∃ t, exec (.finish 63) active = .next t ∧ t.phase ≠ .consumed ∧ t.phase = .fault ∧ t.cause ≠ active.cause) ∧
    (∃ t, exec (.finish 64) idle = .next t ∧ t.phase = .fault) :=
  ⟨⟨_, rfl, rfl⟩, ⟨_, rfl, by decide, rfl, by decide⟩, ⟨_, rfl, rfl⟩⟩

/-- `WhichCommandWritesWhat`: commands that do write what the clause names. -/
theorem witness_writers :
    look (fun t => (t.outputLength, t.f1, t.f0)) (exec (.init 1) idle) = some (1, 0, 0) ∧
    (1, (0 : Word), (0 : Word)) ≠ (idle.outputLength, idle.f1, idle.f0) ∧
    look (fun t => t.buf) (exec (.absorb 1 [7]) activeEmpty) = some [(0, 7)] ∧
    look (fun t => t.ds.length) (exec (.finish 64) active) = some 64 := by decide +kernel

/-- `PhaseTransitionTable`: a frame start that spells no command, in a phase that parses and in FAULT; a fault that is
ignored. -/
theorem witness_phase_table :
    (∃ t, exec (.init 64) faulted = .next t) ∧ faulted.phase = .fault ∧
    ({ active with cs := [0x06, 0x01] } : State).cs = 0x06#8 :: [0x01] ∧
    ({ faulted with cs := [0x00] } : State).cs = 0x00#8 :: [] ∧
    ((0x00#8).toNat < 1 ∨ 5 < (0x00#8).toNat) ∧ ((0x06#8).toNat < 1 ∨ 5 < (0x06#8).toNat) :=
  ⟨⟨_, rfl⟩, rfl, rfl, rfl, by decide, by decide⟩

/-- `FaultsArePrecise`, its second clause: a step that faults. -/
theorem witness_step_faults :
    ({ active with cs := [0x06] } : State).phase ≠ .fault ∧
    ∃ t, step { active with cs := [0x06] } = .next t ∧ t.phase = .fault :=
  ⟨by decide, _, rfl, rfl⟩

/-- `MixingSubStep`: the first column, and the values its eight lines compute (V-G2). -/
theorem witness_mixing :
    (0 : Fin 16) ≠ 4 ∧ (0 : Fin 16) ≠ 8 ∧ (0 : Fin 16) ≠ 12 ∧ (4 : Fin 16) ≠ 8 ∧ (4 : Fin 16) ≠ 12 ∧ (8 : Fin 16) ≠ 12 ∧
    ((15 : Fin 16) ≠ 0 ∧ (15 : Fin 16) ≠ 4 ∧ (15 : Fin 16) ≠ 8 ∧ (15 : Fin 16) ≠ 12) ∧
    (1 : Word) = 0 + 0 + 1 ∧ (0x100000000 : Word) = rotr (0 ^^^ 1) 32 ∧ (0x100000000 : Word) = 0 + 0x100000000 ∧
    (0x100 : Word) = rotr (0 ^^^ 0x100000000) 24 ∧ (0x101 : Word) = 1 + 0x100 + 0 ∧
    (0x0101000000010000 : Word) = rotr (0x100000000 ^^^ 0x101) 16 ∧
    (0x0101000100010000 : Word) = 0x100000000 + 0x0101000000010000 ∧
    (0x0202000200020200 : Word) = rotr (0x100 ^^^ 0x0101000100010000) 63 := by decide +kernel

/-- The block of the worked trace of spec/41_compression_function.md R157. -/
def tracedBlock : List Byte := [0x61, 0x62, 0x63] ++ zeros 125

/-- The working vectors of that trace, from the start of F on. -/
def traced : Nat → Vector Word 16
  | 0 => initialVector h64 3 0 Word.allOnes 0
  | k + 1 => subStep (messageWords tracedBlock) (Fin.ofNat 12 (k / 8)) (traced k) (Fin.ofNat 8 k)

/-- `CompressionFollowsTheSchedule`: the working vectors of R157's trace, where they start and how each sub-step goes on. -/
theorem witness_compression :
    traced 0 = #v[h64[0], h64[1], h64[2], h64[3], h64[4], h64[5], h64[6], h64[7],
      0x6a09e667f3bcc908#64, 0xbb67ae8584caa73b#64, 0x3c6ef372fe94f82b#64, 0xa54ff53a5f1d36f1#64,
      0x510e527fade682d1#64 ^^^ 3, 0x9b05688c2b3e6c1f#64 ^^^ 0, 0x1f83d9abfb41bd6b#64 ^^^ Word.allOnes,
      0x5be0cd19137e2179#64 ^^^ 0] ∧
    ∀ (r : Fin 12) (i : Fin 8) (a b c d x y : Fin 16),
      quadTable[i] = (a, b, c, d) → scheduleTable[r][i] = (x, y) →
        traced (8 * r.val + i.val + 1) =
          mixG (traced (8 * r.val + i.val)) ⟨a, b, c, d⟩ (le64 ((tracedBlock.drop (8 * x.val)).take 8))
            (le64 ((tracedBlock.drop (8 * y.val)).take 8)) := by
  refine ⟨rfl, fun r i a b c d x y hq hm => ?_⟩
  have hr : Fin.ofNat 12 ((8 * r.val + i.val) / 8) = r := Fin.ext (by simp only [Fin.ofNat]; omega)
  have hi : Fin.ofNat 8 (8 * r.val + i.val) = i := Fin.ext (by simp only [Fin.ofNat]; omega)
  rw [quadTable_get] at hq
  rw [scheduleTable_get] at hm
  cases hq
  cases hm
  rw [traced, hr, hi, subStep, ← messageWords_get, ← messageWords_get]

/-- R157: the working vector after the first sub-step of the trace. -/
theorem test_first_sub_step :
    (traced 1)[0] = 0xf0c9aa0f86491dea ∧ (traced 1)[4] = 0xb7defc3d0277e11f ∧ (traced 1)[8] = 0xee5e0f39647a9fff ∧
      (traced 1)[12] = 0x7772fc2886a76c5f := by decide +kernel

/-- `ColumnsCommuteAndDiagonalsCommute`: two columns, two diagonals. -/
theorem witness_columns :
    ((0 : Fin 8).val < 4 ∧ (3 : Fin 8).val < 4) ∧ (4 ≤ (4 : Fin 8).val ∧ 4 ≤ (7 : Fin 8).val) := by decide

/-- `RotationMovesBits`: the ends of the range. -/
theorem witness_rotation : (0 < 1 ∧ 1 < 64) ∧ (0 < 63 ∧ 63 < 64) ∧ (0 < 64 ∧ 63 < 64) := by decide

/-- `ParameterBlockLayout`, `DigestSerialisation`, `MessageWordsOfTheBuffer`: full and empty strings, the ends of each
index range. -/
theorem witness_layouts :
    (List.replicate 16 (2 : Byte)).length ≤ 16 ∧ ([] : List Byte).length ≤ 16 ∧ (4 ≤ 4 ∧ 4 < 32) ∧ (4 ≤ 31 ∧ 31 < 32) ∧
    (0 < 16 ∧ 15 < 16) ∧ (64 ≤ 64 ∧ 7 < 8 ∧ 8 * (7 : Fin 8).val + 7 < 64) ∧
    (1 ≤ 64 ∧ 0 < 8 ∧ 8 * (0 : Fin 8).val + 0 < 1) := by decide

/-- The invariant's state for `StepKeepsTheInvariant`. -/
theorem finish_frame_inv : Inv { active with cs := [0x05, 0x40] } := by
  refine ⟨by decide, by decide, fun _ => by decide, ⟨fun _ => rfl, fun h => by cases h⟩, fun _ => rfl, fun _ => by decide,
    fun _ => by decide, fun h => by cases h⟩

/-- `StepKeepsTheInvariant`, `OnlyFinishEmits`: a step of FINISH from a state that meets the invariant. -/
theorem witness_step_inv :
    Inv { active with cs := [0x05, 0x40] } ∧ ∃ t, step { active with cs := [0x05, 0x40] } = .next t :=
  ⟨finish_frame_inv, _, rfl⟩

/-- `UnspecifiedStateNeverMatters`: in IDLE states that differ in every register, in ACTIVE states that differ in a stale
cell. -/
theorem witness_unspecified :
    AgreeOnSpecified idle { activeFull with phase := .idle } ∧ idle.h ≠ activeFull.h ∧ idle.n ≠ activeFull.n ∧
    AgreeOnSpecified active { active with buf := [(0, 0x61), (1, 0x62), (2, 0x63), (3, 0xff)] } := by
  refine ⟨⟨rfl, rfl, rfl, rfl, fun h => (by cases h), fun h => (by cases h)⟩, by decide, by decide, ?_⟩
  exact ⟨rfl, rfl, rfl, rfl, fun _ => ⟨rfl, rfl, rfl, rfl, rfl, rfl, rfl⟩, fun _ => by decide⟩

/-- `TransactionEmitsTheHash`, `FinalCounter`: each construction command, the longest strings, the empty ones. -/
theorem witness_transaction :
    idle.phase ≠ .fault ∧ 1 ≤ (1#8).toNat ∧ (64#8).toNat ≤ 64 ∧ (List.replicate 64 (1 : Byte)).length ≤ 64 ∧
    (List.replicate 16 (1 : Byte)).length ≤ 16 ∧ ([] : List Byte).length ≤ 16 ∧
    (Instr.init 64 = .init 64 ∧ ([] : List Byte) = []) ∧
    Instr.initMac 64 2 [5, 6] = .initMac 64 (BitVec.ofNat 8 [(5 : Byte), 6].length) [5, 6] ∧
    Instr.initKdf 64 1 2 0 [5] [6, 7] [] = initKdfOf 64 [5] [6, 7] [] := by decide

/-- `HostCommandsOfTheSubBlocks`: each opcode at a frame start with a next state, a byte that is none, an ABSORB turned
away. -/
theorem witness_host_commands :
    active.phase ≠ .fault ∧ idle.phase ≠ .fault ∧
    (∃ t, step { active with cs := [0x01, 0x40] } = .next t) ∧
    (∃ t, step { active with cs := [0x02, 0x40, 0x00] } = .next t) ∧
    (∃ t, step { active with cs := [0x03, 0x40, 0x00, 0x00, 0x00] } = .next t) ∧
    (∃ t, step { active with cs := [0x04, 0, 0, 0, 0, 0, 0, 0, 0] } = .next t) ∧
    (∃ t, step { active with cs := [0x05, 0x40] } = .next t ∧ t.phase = .consumed) ∧
    (∃ t, step { active with cs := [0x06] } = .next t) ∧
    (∃ t, step { idle with cs := [0x04, 1, 0, 0, 0, 0, 0, 0, 0] } = .next t) ∧
    Instr.WellFormed (.finish 64) = true ∧ [0x05, 0x40] = encode (.finish 64) ++ [] :=
  ⟨by decide, by decide, ⟨_, rfl⟩, ⟨_, rfl⟩, ⟨_, rfl⟩, ⟨_, rfl⟩, ⟨_, rfl, rfl⟩, ⟨_, rfl⟩, ⟨_, rfl⟩, by decide, by decide⟩

/-- `OutcomesAreClassified`: a state of each kind it tells apart. -/
theorem witness_outcomes :
    faulted.phase = .fault ∧ active.phase ≠ .fault ∧ classify active (exec (.init 65) active) = .fault .paramRange ∧
    classify active (exec (.absorb 0 []) active) = .next active ∧
    classify { active with cs := [0x01] } (step { active with cs := [0x01] }) = .stuck ∧
    classify idle (step idle) = .ended := by
  refine ⟨by decide, by decide, rfl, rfl, rfl, rfl⟩

/-- `EveryRunEndsOrIsStuck`: runs that end outside FAULT, end in FAULT, and get stuck. -/
theorem witness_runs :
    (Ended (runToRest { idle with cs := [0x01, 0x40] }) ∧ (runToRest { idle with cs := [0x01, 0x40] }).phase ≠ .fault) ∧
    (Ended (runToRest { idle with cs := [0x06, 0x40] }) ∧ (runToRest { idle with cs := [0x06, 0x40] }).phase = .fault) ∧
    Stuck (runToRest { idle with cs := [0x01] }) := by
  refine ⟨⟨rfl, fun h => by cases h⟩, ⟨rfl, rfl⟩, rfl⟩

/-- `RunFromResetShowsTheCommands`: sequences that end in each phase, and cut frames at the ends of `k`. -/
theorem witness_run_from_reset :
    (∀ i ∈ [Instr.init 64, .absorb 1 [7]], i.WellFormed = true) ∧ (∀ i ∈ [Instr.init 0], i.WellFormed = true) ∧
    look (fun u => u.phase) (runCommands [] State.reset) = some .idle ∧
    look (fun u => u.phase) (runCommands [.init 64, .absorb 1 [7]] State.reset) = some .active ∧
    look (fun u => u.phase) (runCommands [.init 0] State.reset) = some .fault ∧
    look (fun u => u.phase) (runCommands [.init 64, .finish 64] State.reset) = some .consumed ∧
    (∀ i ∈ [Instr.init 64, .finish 64], i.WellFormed = true) ∧
    (Instr.WellFormed (.finish 64) = true ∧ 0 < 1 ∧ 1 < (encode (.finish 64)).length) ∧
    (Instr.WellFormed (.absorb 2 [7, 8]) = true ∧ 10 < (encode (.absorb 2 [7, 8])).length) ∧
    (0 < 8 ∧ 8 < (encode (.absorb 2 [7, 8])).length ∧ 8 < 9) := by
  refine ⟨by decide, by decide, rfl, rfl, rfl, rfl, by decide, by decide, by decide, by decide⟩

/-- `InternalOperationsAndHostCommands`: a command with a next state in phase ACTIVE; the ends of `k` and of the length; a
full buffer; each operation's result. -/
theorem witness_internal_operations :
    (active.phase = .active ∧ activeFull.phase = .active) ∧ (∃ t, exec (.absorb 1 [7]) active = .next t) ∧
    (∃ t, exec (.finish 64) activeFull = .next t) ∧
    (0 < 1 ∧ 127 < 128 ∧ 128 ∣ counter active) ∧ (activeFull.n.val = 128 ∧ counter activeFull + 128 < 2 ^ 128) ∧
    (0 < 1 ∧ runInternal (.serialize active.h 1) active = .bytes [0x48]) ∧
    runInternal .pad activeFull = .state activeFull ∧
    (∃ t, runInternal (.pushByte 7) active = .state t) ∧ (∃ t, runInternal (.absorbBody []) active = .state t) ∧
    ∃ t, runInternal (.construct 64 0 0 0 [] [] []) idle = .state t :=
  ⟨by decide, ⟨_, rfl⟩, ⟨_, rfl⟩, by decide, by decide +kernel, by decide +kernel, rfl, ⟨_, rfl⟩, ⟨_, rfl⟩, ⟨_, rfl⟩⟩

end Sys2Proof.Tests
end

section
/-! Absorbing as a function of the whole input: after any bytes, the engine holds the chaining value of the full blocks,
their count, and the rest of the input in the buffer (spec/42_block_buffer_manager.md R189). -/

namespace Sys2Proof.Proofs

open Sys2Proof.Machine Sys2Proof.Safety

/-! The blocks an input is cut into. -/

theorem fullBlocks_le (len : Nat) : 128 * fullBlocks len ≤ len := by
  rw [fullBlocks]; omega

/-- One more byte starts a new block exactly when it finds the last one full. -/
theorem fullBlocks_succ (len : Nat) :
    fullBlocks (len + 1) =
      if len - 128 * fullBlocks len = 128 then fullBlocks len + 1 else fullBlocks len := by
  split <;> simp only [fullBlocks] at * <;> omega

theorem fullBlocks_of_le {len : Nat} (h : len ≤ 128) : fullBlocks len = 0 := by
  rw [fullBlocks]; omega

/-- The first k blocks do not see what follows them. -/
theorem chainBlocks_append (f0 f1 : Word) (k : Nat) (h : Vector Word 8) (done : Nat) (input more : List Byte)
    (hk : 128 * k ≤ input.length) :
    chainBlocks f0 f1 k h done (input ++ more) = chainBlocks f0 f1 k h done input := by
  induction k generalizing h done input with
  | zero => rfl
  | succ k ih =>
    rw [chainBlocks, chainBlocks, List.take_append_of_le_length (by omega),
      List.drop_append_of_le_length (by omega), ih _ _ _ (by rw [List.length_drop]; omega)]

/-- The chain of k + 1 blocks compresses block k last. -/
theorem chainBlocks_succ (f0 f1 : Word) (k : Nat) (h : Vector Word 8) (done : Nat) (input : List Byte) :
    chainBlocks f0 f1 (k + 1) h done input =
      compressF (chainBlocks f0 f1 k h done input) ((input.drop (128 * k)).take 128)
        (countLow (done + 128 * (k + 1))) (countHigh (done + 128 * (k + 1))) f0 f1 := by
  induction k generalizing h done input with
  | zero => rfl
  | succ k ih =>
    have hcount : done + 128 + 128 * (k + 1) = done + 128 * (k + 1 + 1) := by omega
    rw [chainBlocks, ih, hcount, List.drop_drop, chainBlocks, Nat.add_comm 128, ← Nat.mul_succ]

/-! The counter as a byte count. -/

theorem countLow_counter (s : State) : countLow (counter s) = s.t0 := by
  have h0 := s.t0.isLt
  apply BitVec.eq_of_toNat_eq
  simp only [countLow, counter, BitVec.toNat_ofNat]
  omega

theorem countHigh_counter (s : State) : countHigh (counter s) = s.t1 := by
  have h0 := s.t0.isLt
  have h1 := s.t1.isLt
  apply BitVec.eq_of_toNat_eq
  simp only [countHigh, counter, BitVec.toNat_ofNat]
  omega

/-- The two halves of a byte count are its counter value, modulo 2^128. -/
theorem counter_of_count {s : State} {total : Nat} (h0 : s.t0 = countLow total) (h1 : s.t1 = countHigh total) :
    counter s = total % 2 ^ 128 := by
  simp only [counter, h0, h1, countLow, countHigh, BitVec.toNat_ofNat]
  omega

/-- CTR_ADD on the low half of a byte count (R181). -/
theorem ctrAdd_countLow {s : State} {total : Nat} (k : Nat) (h0 : s.t0 = countLow total) :
    (ctrAdd k s).t0 = countLow (total + k) := by
  apply BitVec.eq_of_toNat_eq
  simp only [ctrAdd_t0, h0, countLow, BitVec.toNat_ofNat]
  omega

/-- CTR_ADD carries into the high half of a byte count (R181). -/
theorem ctrAdd_countHigh {s : State} {total k : Nat} (hk : k ≤ 128) (h0 : s.t0 = countLow total)
    (h1 : s.t1 = countHigh total) : (ctrAdd k s).t1 = countHigh (total + k) := by
  have hcarry (p : Prop) [Decidable p] : (if p then 1 else 0 : Word).toNat = if p then 1 else 0 := by
    split <;> rfl
  apply BitVec.eq_of_toNat_eq
  simp only [ctrAdd_t1, h0, h1, countLow, countHigh, BitVec.toNat_ofNat, BitVec.toNat_add, hcarry]
  split <;> omega

/-- CTR_ADD adds to the counter modulo 2^128 (R181). -/
theorem counter_ctrAdd (s : State) {k : Nat} (hk : k ≤ 128) :
    counter (ctrAdd k s) = (counter s + k) % 2 ^ 128 :=
  counter_of_count (ctrAdd_countLow k (countLow_counter s).symm)
    (ctrAdd_countHigh hk (countLow_counter s).symm (countHigh_counter s).symm)

/-! The state after an input. -/

/-- `s` has taken in `input` since its chaining value was `h` and its counter `done`, with an empty buffer. -/
structure Absorbed (h : Vector Word 8) (done : Nat) (input : List Byte) (s : State) : Prop where
  chain : s.h = chainBlocks s.f0 s.f1 (fullBlocks input.length) h done input
  low : s.t0 = countLow (done + 128 * fullBlocks input.length)
  high : s.t1 = countHigh (done + 128 * fullBlocks input.length)
  held : s.n.val = input.length - 128 * fullBlocks input.length
  rest : bufPrefix s.buf s.n.val = input.drop (128 * fullBlocks input.length)

/-- Every state has taken in what its buffer holds. -/
theorem absorbed_buffer (s : State) : Absorbed s.h (counter s) (bufPrefix s.buf s.n.val) s := by
  have hf : fullBlocks (bufPrefix s.buf s.n.val).length = 0 :=
    fullBlocks_of_le (by rw [bufPrefix_length]; omega)
  constructor <;> rw [hf]
  · rfl
  · exact (countLow_counter s).symm
  · exact (countHigh_counter s).symm
  · simp
  · simp

/-- PUSH_BYTE takes in one byte more (R183). -/
theorem Absorbed.pushByte {h : Vector Word 8} {done : Nat} {input : List Byte} {s : State}
    (hs : Absorbed h done input s) (b : Byte) : Absorbed h done (input ++ [b]) (pushByte s b) := by
  obtain ⟨chain, low, high, held, rest⟩ := hs
  have hle := fullBlocks_le input.length
  have hlen : (input ++ [b]).length = input.length + 1 := by simp
  have hblocks := fullBlocks_succ input.length
  rw [← held] at hblocks
  rcases pushByte_cases s b with ⟨hn, e⟩ | ⟨hn, e⟩
  · have hblocks : fullBlocks (input ++ [b]).length = fullBlocks input.length := by
      rw [hlen, hblocks, if_neg (by omega)]
    constructor <;> rw [hblocks]
    · rw [pushByte_f0, pushByte_f1, chainBlocks_append _ _ _ _ _ _ _ hle, ← chain, e, appendByte_h]
    · rw [e, appendByte_t0, low]
    · rw [e, appendByte_t1, high]
    · rw [pushByte_n, if_neg (by omega), held]; omega
    · rw [pushByte_bufPrefix, if_neg (by omega), rest, List.drop_append_of_le_length hle]
  · have hblocks : fullBlocks (input ++ [b]).length = fullBlocks input.length + 1 := by
      rw [hlen, hblocks, if_pos hn]
    have hall : 128 * (fullBlocks input.length + 1) = input.length := by omega
    have hblock : (input.drop (128 * fullBlocks input.length)).take 128 = wholeBlock s.buf := by
      rw [← rest, hn]; exact List.take_of_length_le (by simp)
    have hlow := ctrAdd_countLow 128 low
    have hhigh := ctrAdd_countHigh (Nat.le_refl 128) low high
    rw [Nat.add_assoc, ← Nat.mul_succ] at hlow hhigh
    constructor <;> rw [hblocks]
    · rw [pushByte_f0, pushByte_f1, chainBlocks_append _ _ _ _ _ _ _ (by omega), chainBlocks_succ, hblock,
        ← chain, ← hlow, ← hhigh, e, appendByte_h, compressFull_h]
    · rw [e, appendByte_t0, compressFull_t0, hlow]
    · rw [e, appendByte_t1, compressFull_t1, hhigh]
    · rw [pushByte_n, if_pos hn]; omega
    · rw [pushByte_bufPrefix, if_pos hn, hall, List.drop_left, List.nil_append]

/-- ABSORB_BODY takes in its bytes (R184). -/
theorem Absorbed.absorbBody {h : Vector Word 8} {done : Nat} {input : List Byte} {s : State}
    (hs : Absorbed h done input s) (data : List Byte) :
    Absorbed h done (input ++ data) (absorbBody data s) := by
  induction data generalizing input s with
  | nil => rwa [List.append_nil]
  | cons b data ih =>
    rw [List.append_cons, absorbBody_cons]
    exact ih (hs.pushByte b)

/-- FINISH compresses the rest of the input, padded with zero bytes, with the count of all of it (R213). -/
theorem Absorbed.compressLast_h {h : Vector Word 8} {done : Nat} {input : List Byte} {s : State}
    (hs : Absorbed h done input s) :
    (compressLast s).h =
      compressF (chainBlocks s.f0 s.f1 (fullBlocks input.length) h done input)
        (input.drop (128 * fullBlocks input.length) ++
          zeros (128 - (input.drop (128 * fullBlocks input.length)).length))
        (countLow (done + input.length)) (countHigh (done + input.length)) Word.allOnes s.f1 := by
  obtain ⟨chain, low, high, held, rest⟩ := hs
  have hle := fullBlocks_le input.length
  have hn : s.n.val ≤ 128 := by omega
  have hcount : done + 128 * fullBlocks input.length + s.n.val = done + input.length := by omega
  rw [Machine.compressLast_h, wholeBlock_zeroCells _ _ hn, rest, chain, ctrAdd_countLow _ low,
    ctrAdd_countHigh hn low high, hcount, List.length_drop, held]

end Sys2Proof.Proofs
end

section
/-! A transaction (spec/00_scope.md R3): the hash a construction command starts, what it has taken in, what FINISH
emits of it. -/

namespace Sys2Proof.Proofs

open Sys2Proof.Machine Sys2Proof.Safety

theorem runCommands_cons {i : Instr} {s t : State} (is : List Instr) (h : exec i s = .next t) :
    runCommands (i :: is) s = runCommands is t := by
  simp only [runCommands, h]

/-- In phase ACTIVE a sequence of ABSORBs absorbs its chunks one after the other, as one string (R186). -/
theorem runCommands_absorbs (chunks : List (List Byte)) (is : List Instr) {s : State} (hp : s.phase = .active) :
    runCommands (chunks.map absorbOf ++ is) s = runCommands is (absorbBody chunks.flatten s) := by
  induction chunks generalizing s with
  | nil => rfl
  | cons chunk chunks ih =>
    have hexec : exec (absorbOf chunk) s = .next (absorbBody chunk s) := by
      simp only [absorbOf, exec, execAbsorb, hp]
    rw [List.map_cons, List.cons_append, runCommands_cons _ hexec, ih (by simpa using hp),
      List.flatten_cons, absorbBody_append]

theorem runCommands_finish {rl : Byte} {s : State} (hp : s.phase = .active)
    (hl : s.outputLength.toNat = rl.toNat) : runCommands [.finish rl] s = .next (finishBody s) := by
  have hexec : exec (.finish rl) s = .next (finishBody s) := by
    simp only [exec, execFinish, hp, hl, if_true]
  rw [runCommands_cons _ hexec, runCommands]

/-- The three construction commands, absent strings empty, do what INIT_KDF does (R125, R126, R127). -/
theorem exec_eq_initKdfOf {c : Instr} {nn : Byte} {key salt info : List Byte}
    (hc : (c = .init nn ∧ key = [] ∧ salt = [] ∧ info = []) ∨
      (c = .initMac nn (BitVec.ofNat 8 key.length) key ∧ salt = [] ∧ info = []) ∨
      c = initKdfOf nn key salt info) (s : State) :
    exec c s = exec (initKdfOf nn key salt info) s := by
  rcases hc with ⟨rfl, rfl, rfl, rfl⟩ | ⟨rfl, rfl, rfl⟩ | rfl <;> rfl

/-- A key and a message are taken in as the key's block, if there is a key, and the message after it. -/
theorem keyedInput_append (key a b : List Byte) : keyedInput key (a ++ b) = keyedInput key a ++ b := by
  rw [keyedInput, keyedInput, List.append_assoc]

/-- `t` is in the middle of a hash started at `s` with those operands, which has taken in `message` since. -/
structure Running (nn : Byte) (key salt info message : List Byte) (s t : State) : Prop where
  absorbed : Absorbed (hInit (pBuild nn (BitVec.ofNat 8 key.length) salt info)) 0 (keyedInput key message) t
  lastBlock : t.f0 = 0
  tree : t.f1 = 0
  length : t.outputLength.toNat = nn.toNat
  phase : t.phase = .active
  cause : t.cause = s.cause
  ds : t.ds = s.ds

/-- The register writes of CONSTRUCT leave registers that have taken in nothing (R124). -/
theorem newInstance_absorbed (nn kk : Byte) (salt info : List Byte) (s : State) :
    Absorbed (hInit (pBuild nn kk salt info)) 0 [] (newInstance nn kk salt info s) :=
  absorbed_buffer (newInstance nn kk salt info s)

/-- A construction command with operands in range starts a hash (R124, R131). -/
theorem exec_initKdfOf_running {s : State} {nn : Byte} {key salt info : List Byte} (hp : s.phase ≠ .fault)
    (hn1 : 1 ≤ nn.toNat) (hn64 : nn.toNat ≤ 64) (hk : key.length ≤ 64) (hs : salt.length ≤ 16)
    (hi : info.length ≤ 16) :
    ∃ t, exec (initKdfOf nn key salt info) s = .next t ∧ Running nn key salt info [] s t := by
  have hkk : (BitVec.ofNat 8 key.length).toNat = key.length := Nat.mod_eq_of_lt (by omega)
  have hsl : (BitVec.ofNat 8 salt.length).toNat = salt.length := Nat.mod_eq_of_lt (by omega)
  have hil : (BitVec.ofNat 8 info.length).toNat = info.length := Nat.mod_eq_of_lt (by omega)
  have hrange := (paramsInRange_iff nn (BitVec.ofNat 8 key.length) (BitVec.ofNat 8 salt.length)
    (BitVec.ofNat 8 info.length)).2 ⟨⟨hn1, hn64⟩, hkk.le.trans hk, hsl.le.trans hs, hil.le.trans hi⟩
  have hnn : (nn.setWidth 7).toNat = nn.toNat := by
    rw [BitVec.toNat_setWidth]; exact Nat.mod_eq_of_lt (by omega)
  have habs := newInstance_absorbed nn (BitVec.ofNat 8 key.length) salt info s
  refine ⟨_, rfl, ?_⟩
  rw [construct_accepted _ _ _ _ _ _ _ _ hp hrange, hkk]
  cases key with
  | nil => exact ⟨habs, rfl, rfl, hnn, rfl, rfl, rfl⟩
  | cons b key =>
    rw [if_pos (by simp)]
    refine ⟨?_, by simp, by simp, by simpa using hnn, by simp, by simp, by simp⟩
    simpa [keyedInput] using habs.absorbBody (keyBlock (b :: key))

/-- An ABSORB's bytes lengthen the message (R184). -/
theorem Running.absorbBody {nn : Byte} {key salt info message : List Byte} {s t : State}
    (hr : Running nn key salt info message s t) (data : List Byte) :
    Running nn key salt info (message ++ data) s (absorbBody data t) where
  absorbed := by rw [keyedInput_append]; exact hr.absorbed.absorbBody data
  lastBlock := (absorbBody_f0 data t).trans hr.lastBlock
  tree := (absorbBody_f1 data t).trans hr.tree
  length := by rw [absorbBody_outputLength]; exact hr.length
  phase := (absorbBody_phase data t).trans hr.phase
  cause := (absorbBody_cause data t).trans hr.cause
  ds := (absorbBody_ds data t).trans hr.ds

/-- FINISH emits the hash of the message (R213, R217). -/
theorem Running.finishBody_ds {nn : Byte} {key salt info message : List Byte} {s t : State}
    (hr : Running nn key salt info message s t) :
    (finishBody t).ds = s.ds ++ hash nn key salt info message := by
  rw [Machine.finishBody_ds, hr.absorbed.compressLast_h, hr.lastBlock, hr.tree, hr.length, hr.ds, Nat.zero_add]
  rfl

/-- Settles O40: the construction command starts a hash, the chunks lengthen its message one after the other, and
FINISH emits the message's hash. -/
theorem transactionEmitsTheHash : Obligations.TransactionEmitsTheHash := by
  intro s c nn key salt info chunks hp hn1 hn64 hk hs hi hc
  obtain ⟨t, hexec, hopen⟩ := exec_initKdfOf_running hp hn1 hn64 hk hs hi
  have hrun := hopen.absorbBody chunks.flatten
  rw [List.nil_append] at hrun
  refine ⟨finishBody (absorbBody chunks.flatten t), ?_, hrun.finishBody_ds, rfl, hrun.cause⟩
  rw [List.cons_append, runCommands_cons _ ((exec_eq_initKdfOf hc s).trans hexec),
    runCommands_absorbs _ _ hopen.phase, runCommands_finish hrun.phase hrun.length]

end Sys2Proof.Proofs
end

section
/-! Words: rotation bit by bit, and the little-endian conversions (spec/00_scope.md R14, R15). -/

namespace Sys2Proof.Proofs

open Sys2Proof.Machine

/-- Settles O31: below bit 64 - n the right shift gives the bit, from there on the left shift does. -/
theorem rotationMovesBits : Obligations.RotationMovesBits := by
  intro x n i hn0 hn hi
  rw [rotr, BitVec.getLsbD_or, BitVec.getLsbD_ushiftRight, BitVec.getLsbD_shiftLeft]
  by_cases hlow : i < 64 - n
  · have hmod : (i + n) % 64 = n + i := by omega
    simp [hmod, hlow]
  · have hmod : (i + n) % 64 = i - (64 - n) := by omega
    have hout : x.getLsbD (n + i) = false := BitVec.getLsbD_of_ge x _ (by omega)
    simp [hmod, hlow, hi, hout]

theorem byteOf_toNat (w : Word) (k : Nat) : (byteOf w k).toNat = w.toNat / 2 ^ (8 * k) % 2 ^ 8 := by
  rw [byteOf, BitVec.extractLsb'_toNat, Nat.shiftRight_eq_div_pow]

/-- A word is assembled again from its byte fields (R15). -/
@[simp] theorem le64_le64Bytes (w : Word) : le64 (le64Bytes w) = w := by
  have hw := w.isLt
  apply BitVec.eq_of_toNat_eq
  rw [le64_toNat _ (by simp)]
  simp only [le64Bytes, leNat, byteOf_toNat]
  omega

/-- Eight bytes are the byte fields of the word assembled from them (R15). -/
theorem le64Bytes_le64 (b0 b1 b2 b3 b4 b5 b6 b7 : Byte) :
    le64Bytes (le64 [b0, b1, b2, b3, b4, b5, b6, b7]) = [b0, b1, b2, b3, b4, b5, b6, b7] := by
  simp [le64Bytes, byteOf_le64]

/-- Byte k of `LE64_BYTES` is bits `[8k+7 : 8k]` of the word (R15). -/
theorem le64Bytes_getElem? (w : Word) {k : Nat} (hk : k < 8) : (le64Bytes w)[k]? = some (byteOf w k) := by
  interval_cases k <;> rfl

/-- Settles O32: the weighted sum is `leNat` of the eight bytes, written out. -/
theorem littleEndianConversion : Obligations.LittleEndianConversion := by
  refine ⟨fun b0 b1 b2 b3 b4 b5 b6 b7 => ⟨?_, le64Bytes_le64 ..⟩,
    fun w => ⟨le64_le64Bytes w, le64Bytes_length w, fun k hk => le64Bytes_getElem? w hk⟩⟩
  rw [le64_toNat _ (by simp)]
  simp only [leNat]
  omega

end Sys2Proof.Proofs
end

section
/-! The frame layer: a frame is its header and its payload; what the decoder makes of a whole frame and of a cut one
(spec/30_encoding.md R80 to R91, spec/20_memory.md R56). -/

namespace Sys2Proof.Proofs

open Sys2Proof.Machine Sys2Proof.Laws

/-- A frame's bytes up to the last header byte (R82). -/
def headerBytes : Header → List Byte
  | .init nn => [0x01#8, nn]
  | .initMac nn kk => [0x02#8, nn, kk]
  | .initKdf nn kk sl il => [0x03#8, nn, kk, sl, il]
  | .absorb len => 0x04#8 :: le64Bytes len
  | .finish rl => [0x05#8, rl]

/-- A frame's bytes after its header: the strings in the order key, salt, info or data (R82). -/
def payloadBytes : Instr → List Byte
  | .init _ => []
  | .initMac _ _ key => key
  | .initKdf _ _ _ _ key salt info => key ++ (salt ++ info)
  | .absorb _ data => data
  | .finish _ => []

theorem encode_eq (i : Instr) : encode i = headerBytes i.header ++ payloadBytes i := by
  cases i <;> simp [encode, Instr.header, headerBytes, payloadBytes]

@[simp] theorem headerBytes_length (h : Header) : (headerBytes h).length = headerLength h := by
  cases h <;> rfl

/-- A whole header decodes to itself and leaves what follows it (R82). -/
theorem decodeHeader_headerBytes (h : Header) (rest : List Byte) :
    decodeHeader (headerBytes h ++ rest) = .header h rest := by
  cases h with
  | absorb len =>
    show HeaderResult.header (.absorb (le64 (le64Bytes len))) rest = _
    rw [le64_le64Bytes]
  | init nn => rfl
  | initMac nn kk => rfl
  | initKdf nn kk sl il => rfl
  | finish rl => rfl

/-- A header cut short has not arrived (R56). -/
theorem decodeHeader_take (h : Header) {k : Nat} (hk : k < headerLength h) :
    decodeHeader ((headerBytes h).take k) = .incomplete := by
  cases h <;> (simp only [headerLength] at hk; interval_cases k <;> rfl)

/-- The payload of a well-formed command, whatever follows it, completes the command (R82, R88, R89). -/
theorem decodePayload_payloadBytes {i : Instr} (hw : i.WellFormed = true) (rest : List Byte) :
    decodePayload (headerInRange i.header) i.header (payloadBytes i ++ rest) = .instr i rest := by
  cases i with
  | init nn => rfl
  | finish rl => rfl
  | absorb len data =>
    simp only [Instr.WellFormed, beq_iff_eq] at hw
    simp only [Instr.header, payloadBytes, decodePayload, headerInRange, cond_true, ← hw, splitPayload_append]
  | initMac nn kk key =>
    simp only [Instr.header, payloadBytes, decodePayload]
    cases hr : headerInRange (.initMac nn kk) <;>
      simp only [Instr.WellFormed, hr, cond_true, cond_false, beq_iff_eq] at hw
    · simp [hw]
    · simp only [cond_true, ← hw, splitPayload_append]
  | initKdf nn kk sl il key salt info =>
    simp only [Instr.header, payloadBytes, decodePayload]
    cases hr : headerInRange (.initKdf nn kk sl il) <;>
      simp only [Instr.WellFormed, hr, cond_true, cond_false, beq_iff_eq, Bool.and_eq_true] at hw <;>
      obtain ⟨⟨hkey, hsalt⟩, hinfo⟩ := hw
    · simp [hkey, hsalt, hinfo]
    · simp only [cond_true, ← hkey, ← hsalt, ← hinfo, List.append_assoc, splitPayload_append]

theorem splitPayload_length {k : Nat} {bs p rest : List Byte} (h : splitPayload k bs = some (p, rest)) :
    bs.length = k + rest.length := by
  obtain ⟨rfl, hlen⟩ := (splitPayload_some _ _ _ _).1 h
  rw [List.length_append, hlen]

/-- A payload that completes a command has as many bytes as the header announces (R82). -/
theorem decodePayload_length {aw : Bool} {h : Header} {bs rest : List Byte} {i : Instr}
    (hd : decodePayload aw h bs = .instr i rest) :
    bs.length = (bif aw then payloadLength h else 0) + rest.length := by
  cases h with
  | init nn => cases hd; cases aw <;> simp [payloadLength]
  | finish rl => cases hd; cases aw <;> simp [payloadLength]
  | initMac nn kk =>
    simp only [decodePayload] at hd
    split at hd
    · cases hd
    · rename_i hs
      cases hd
      exact splitPayload_length hs
  | absorb len =>
    simp only [decodePayload] at hd
    split at hd
    · cases hd
    · rename_i hs
      cases hd
      exact splitPayload_length hs
  | initKdf nn kk sl il =>
    simp only [decodePayload] at hd
    split at hd
    · cases hd
    · rename_i hkey
      split at hd
      · cases hd
      · rename_i hsalt
        split at hd
        · cases hd
        · rename_i hinfo
          cases hd
          rw [splitPayload_length hkey, splitPayload_length hsalt, splitPayload_length hinfo]
          cases aw <;> simp only [payloadLength, cond_true, cond_false] <;> omega

/-- A payload shorter than its header announces has not arrived (R56). -/
theorem decodePayload_short {aw : Bool} {h : Header} {bs : List Byte}
    (hlt : bs.length < bif aw then payloadLength h else 0) : decodePayload aw h bs = .incomplete := by
  cases hd : decodePayload aw h bs with
  | incomplete => rfl
  | illegal op rest => exact absurd hd (decodePayload_ne_illegal aw h bs op rest)
  | instr i rest => have := decodePayload_length hd; omega

/-- The frame of a well-formed command is as long as its header and the payload it announces (R82, R89). -/
theorem encode_length {i : Instr} (hw : i.WellFormed = true) :
    (encode i).length = headerLength i.header + bif headerInRange i.header then payloadLength i.header else 0 := by
  cases i with
  | init nn => exact FrameLength.init nn hw
  | initMac nn kk key => exact FrameLength.initMac nn kk key hw
  | initKdf nn kk sl il key salt info => exact FrameLength.initKdf nn kk sl il key salt info hw
  | absorb len data => exact FrameLength.absorb len data hw
  | finish rl => exact FrameLength.finish rl hw

end Sys2Proof.Proofs
end

section
/-! One step on a frame of CS: a whole one runs its command, a cut one has no step (spec/20_memory.md R55, R56,
spec/30_encoding.md R89). -/

namespace Sys2Proof.Proofs

open Sys2Proof.Machine

/-- Whether the phase lets the command's frame go on to its payload, as R89 asks of ABSORB. -/
theorem payloadAwaited_header {ph : Phase} {i : Instr} (hi : (∀ len data, i ≠ .absorb len data) ∨ ph = .active) :
    payloadAwaited ph i.header = headerInRange i.header := by
  refine payloadAwaited_eq ph i.header (hi.imp_left fun hne len e => ?_)
  cases i with
  | absorb len' data => exact hne len' data rfl
  | init nn => cases e
  | initMac nn kk key => cases e
  | initKdf nn kk sl il key salt info => cases e
  | finish rl => cases e

/-- A header and a payload that complete a command run it. -/
theorem step_of_frame {s : State} {h : Header} {bs rest : List Byte} {i : Instr} (hp : s.phase ≠ .fault)
    (hcs : s.cs = headerBytes h ++ bs) (hd : decodePayload (payloadAwaited s.phase h) h bs = .instr i rest) :
    step s = exec i (setStream rest s) := by
  simp only [step, fetch_parsing s hp, fetchFrame, hcs, decodeHeader_headerBytes, hd]

/-- A whole frame runs its command, and what follows stays on CS, unless the command is an ABSORB that the phase turns
away. -/
theorem step_of_encode {s : State} {i : Instr} {rest : List Byte} (hp : s.phase ≠ .fault)
    (hw : i.WellFormed = true) (hcs : s.cs = encode i ++ rest)
    (hi : (∀ len data, i ≠ .absorb len data) ∨ s.phase = .active) :
    step s = exec i (setStream rest s) := by
  rw [encode_eq, List.append_assoc] at hcs
  refine step_of_frame hp hcs ?_
  rw [payloadAwaited_header hi, decodePayload_payloadBytes hw]

/-- An ABSORB that the phase turns away runs with its header, its data left on CS (R89, log entry 17). -/
theorem step_of_absorb_turned_away {s : State} {len : Word} {rest : List Byte} (hp : s.phase ≠ .fault)
    (ha : s.phase ≠ .active) (hcs : s.cs = headerBytes (.absorb len) ++ rest) :
    step s = exec (.absorb len []) (setStream rest s) := by
  refine step_of_frame hp hcs ?_
  have haw : payloadAwaited s.phase (.absorb len) = false := by simpa [payloadAwaited] using ha
  simp only [haw, decodePayload, cond_false, splitPayload_zero]

/-- Outside phase ACTIVE the data of an ABSORB have no effect. -/
theorem exec_absorb_data {s : State} (ha : s.phase ≠ .active) (len : Word) (data data' : List Byte) :
    exec (.absorb len data) s = exec (.absorb len data') s := by
  simp only [exec, execAbsorb]
  cases hp : s.phase with
  | active => exact absurd hp ha
  | idle => rfl
  | consumed => rfl
  | fault => rfl

/-- Outside phase ACTIVE an ABSORB leaves phase FAULT (R264). -/
theorem exec_absorb_turned_away {s u : State} {len : Word} {data : List Byte} (ha : s.phase ≠ .active)
    (h : exec (.absorb len data) s = .next u) : u.phase = .fault := by
  have h : execAbsorb len data s = .next u := h
  rcases execAbsorb_cases len data s with ⟨hp, e⟩ | ⟨_, e⟩ | ⟨_, e⟩ | ⟨hp, _⟩
  · rw [e] at h; cases h; exact hp
  · rw [e] at h; cases h; rfl
  · rw [e] at h; cases h; rfl
  · exact absurd hp ha

/-- A step on a whole frame does what its command does, and takes exactly that frame unless the command faults. -/
theorem step_runs_command {s u : State} {i : Instr} {rest : List Byte} (hp : s.phase ≠ .fault)
    (hw : i.WellFormed = true) (hcs : s.cs = encode i ++ rest) (hexec : exec i s = .next u) :
    ∃ c, step s = .next (setStream c u) ∧ (u.phase ≠ .fault → c = rest) := by
  by_cases hi : (∀ len data, i ≠ .absorb len data) ∨ s.phase = .active
  · exact ⟨rest, (step_of_encode hp hw hcs hi).trans (exec_setStream i s u rest hexec), fun _ => rfl⟩
  · push Not at hi
    obtain ⟨⟨len, data, rfl⟩, ha⟩ := hi
    rw [encode_eq, List.append_assoc] at hcs
    have hdata := exec_absorb_data (s := setStream (data ++ rest) s) ha len [] data
    exact ⟨data ++ rest,
      ((step_of_absorb_turned_away hp ha hcs).trans hdata).trans (exec_setStream _ s u _ hexec),
      fun hu => absurd (exec_absorb_turned_away ha hexec) hu⟩

/-- A frame cut short, in a phase that awaits the whole of it, has no step (R56). -/
theorem step_of_cut_frame {s : State} {i : Instr} {k : Nat} (hp : s.phase ≠ .fault)
    (hw : i.WellFormed = true) (hk : k < (encode i).length) (hcs : s.cs = (encode i).take k)
    (hi : (∀ len data, i ≠ .absorb len data) ∨ s.phase = .active ∨ k < 9) :
    step s = .fault (waitReason s.cs) := by
  have hwait : fetchFrame s = .waiting := by
    rw [encode_length hw] at hk
    rw [encode_eq, List.take_append, headerBytes_length] at hcs
    by_cases hh : k < headerLength i.header
    · rw [Nat.sub_eq_zero_of_le hh.le, List.take_zero, List.append_nil] at hcs
      simp only [fetchFrame, hcs, decodeHeader_take _ hh]
    · have hi : (∀ len data, i ≠ .absorb len data) ∨ s.phase = .active := by
        by_contra hne
        push Not at hne
        obtain ⟨⟨len, data, rfl⟩, ha⟩ := hne
        rcases hi with hi | hi | hi
        · exact hi len data rfl
        · exact ha hi
        · exact hh hi
      rw [List.take_of_length_le (by rw [headerBytes_length]; omega)] at hcs
      have hshort : ((payloadBytes i).take (k - headerLength i.header)).length <
          bif headerInRange i.header then payloadLength i.header else 0 := by
        rw [List.length_take]; omega
      simp only [fetchFrame, hcs, decodeHeader_headerBytes, payloadAwaited_header hi, decodePayload_short hshort]
  simp only [step, fetch_parsing s hp, hwait]

end Sys2Proof.Proofs
end

section
/-! A run on a stream of frames: it does what the commands do, and rests where they leave the engine
(spec/00_scope.md R10, spec/70_reset_and_hazards.md R298). -/

namespace Sys2Proof.Proofs

open Sys2Proof.Machine Sys2Proof.Safety

theorem exec_fault {s : State} (hp : s.phase = .fault) (i : Instr) : exec i s = .next s := by
  rcases exec_cases i s with ⟨_, e⟩ | ⟨_, h, _⟩ | ⟨_, _, _, _, _, _, _, _, h, _⟩ | ⟨_, _, _, h, _⟩ | ⟨_, _, h, _⟩
  · exact e
  · exact absurd hp h
  · exact absurd hp h
  · rw [hp] at h; cases h
  · rw [hp] at h; cases h

/-- In phase FAULT every command is ignored (R249). -/
theorem runCommands_fault {s : State} (hp : s.phase = .fault) (is : List Instr) : runCommands is s = .next s := by
  induction is with
  | nil => rfl
  | cons i is ih => rw [runCommands_cons is (exec_fault hp i), ih]

theorem runCommands_next (is : List Instr) (s : State) : ∃ u, runCommands is s = .next u := by
  induction is generalizing s with
  | nil => exact ⟨s, rfl⟩
  | cons i is ih =>
    obtain ⟨t, h⟩ := exec_next i s
    rw [runCommands_cons is h]
    exact ih t

/-- A run on frames of well-formed commands, with more bytes `rest` after them, comes to the state the commands leave, with
`rest` on CS unless they have faulted, and with steps enough for what is on CS. -/
theorem drain_frames {is : List Instr} (hw : ∀ i ∈ is, i.WellFormed = true) {rest : List Byte} {s u : State}
    (hrun : runCommands is s = .next u) {c : List Byte} (hc : s.phase ≠ .fault → c = is.flatMap encode ++ rest)
    {k : Nat} (hk : c.length ≤ k) :
    ∃ k' c', drain k (setStream c s) = drain k' (setStream c' u) ∧ c'.length ≤ k' ∧
      (u.phase ≠ .fault → c' = rest) := by
  induction is generalizing s c k with
  | nil => cases hrun; exact ⟨k, c, rfl, hk, hc⟩
  | cons i is ih =>
    by_cases hp : s.phase = .fault
    · rw [runCommands_fault hp] at hrun
      cases hrun
      exact ⟨k, c, rfl, hk, fun h => absurd hp h⟩
    · obtain ⟨t, hexec⟩ := exec_next i s
      rw [runCommands_cons is hexec] at hrun
      have hcs : (setStream c s).cs = encode i ++ (is.flatMap encode ++ rest) := by
        rw [setStream_cs, hc hp, List.flatMap_cons, List.append_assoc]
      obtain ⟨c', hstep, hc'⟩ := step_runs_command (s := setStream c s) hp (hw i List.mem_cons_self) hcs
        (exec_setStream i s t c hexec)
      have hlt : c'.length < c.length := step_shortens (setStream c s) _ hp hstep
      obtain ⟨k, rfl⟩ : ∃ k', k = k' + 1 := ⟨k - 1, by omega⟩
      rw [drain_succ_next k _ _ hstep]
      exact ih (fun j hj => hw j (List.mem_cons_of_mem i hj)) hrun hc' (by omega)

theorem runFromReset_eq (bs : List Byte) : runFromReset bs = drain bs.length (setStream bs State.reset) := rfl

/-- A run from reset on the frames of well-formed commands rests in the state the commands leave, CS empty (R298). -/
theorem runFromReset_frames {is : List Instr} (hw : ∀ i ∈ is, i.WellFormed = true) {u : State}
    (hrun : runCommands is State.reset = .next u) :
    runFromReset (is.flatMap encode) = setStream [] u := by
  obtain ⟨k, c, hd, hk, hc⟩ := drain_frames hw (rest := []) hrun (fun _ => (List.append_nil _).symm) (Nat.le_refl _)
  rw [runFromReset_eq, hd]
  by_cases hp : u.phase = .fault
  · cases k with
    | zero => rw [List.eq_nil_of_length_eq_zero (Nat.le_zero.1 hk), drain_zero]
    | succ k => exact drain_fault k (setStream c u) hp
  · rw [hc hp]
    exact drain_stopped k _ _ (step_empty (setStream [] u) hp rfl)

/-- With a proper, non-empty part of a further frame after them, which the phase awaits whole, the run rests with that part
on CS, stuck (R56, R298). -/
theorem runFromReset_cut_frame {is : List Instr} (hw : ∀ i ∈ is, i.WellFormed = true) {u : State}
    (hrun : runCommands is State.reset = .next u) {i : Instr} {k : Nat} (hp : u.phase ≠ .fault)
    (hwi : i.WellFormed = true) (hk0 : 0 < k) (hk : k < (encode i).length)
    (hi : (∀ len data, i ≠ .absorb len data) ∨ u.phase = .active ∨ k < 9) :
    runFromReset (is.flatMap encode ++ (encode i).take k) = setStream ((encode i).take k) u ∧
      Stuck (setStream ((encode i).take k) u) ∧ (encode i).take k ≠ [] := by
  have hne : (encode i).take k ≠ [] := by
    intro e
    have := congrArg List.length e
    rw [List.length_take, List.length_nil] at this
    omega
  have hstuck : Stuck (setStream ((encode i).take k) u) := by
    have hstep := step_of_cut_frame (s := setStream ((encode i).take k) u) hp hwi hk rfl hi
    rwa [waitReason_eq, setStream_cs, if_neg hne] at hstep
  obtain ⟨k', c, hd, -, hc⟩ := drain_frames hw hrun (fun _ => rfl) (Nat.le_refl _)
  rw [runFromReset_eq, hd, hc hp]
  exact ⟨drain_stopped k' _ _ hstuck, hstuck, hne⟩

/-- Settles O45: the run rests in the state the commands leave, CS empty or holding the cut frame. -/
theorem runFromResetShowsTheCommands : Obligations.RunFromResetShowsTheCommands := by
  intro is hw
  obtain ⟨u, hrun⟩ := runCommands_next is State.reset
  have hended : Ended (setStream [] u) := rfl
  refine ⟨u, hrun, ?_⟩
  rw [runFromReset_frames hw hrun]
  refine ⟨rfl, hended, ⟨And.right, fun h => ⟨hended, h⟩⟩, ⟨And.right, fun h => ⟨hended, h⟩⟩, ?_⟩
  intro i k hp hwi hk0 hk hi
  obtain ⟨hrest, hstuck, hne⟩ := runFromReset_cut_frame hw hrun hp hwi hk0 hk hi
  rw [hrest]
  exact ⟨hstuck, fun h => hne h.1, fun h => hne h.1⟩

end Sys2Proof.Proofs
end

section
/-! Internal operations beside the commands (spec/00_scope.md R9, spec/30_encoding.md R108): what a command does to the
counter, to `n` and to DS in phase ACTIVE, which tells it apart from a micro-operation alone. -/

namespace Sys2Proof.Proofs

open Sys2Proof.Machine Sys2Proof.Safety

/-! ABSORB keeps the counter at block boundaries, and leaves a byte in the buffer if it has one. -/

theorem compressFull_counter (s : State) : counter (compressFull s) = (counter s + 128) % 2 ^ 128 :=
  counter_ctrAdd s (Nat.le_refl 128)

/-- PUSH_BYTE counts whole blocks alone (R42). -/
theorem pushByte_counter_aligned {s : State} (h : 128 ∣ counter s) (b : Byte) : 128 ∣ counter (pushByte s b) := by
  rcases pushByte_cases s b with ⟨_, e⟩ | ⟨_, e⟩
  · rw [e]; exact h
  · have hc : counter (pushByte s b) = (counter s + 128) % 2 ^ 128 := by rw [e]; exact compressFull_counter s
    omega

theorem absorbBody_counter_aligned {s : State} (h : 128 ∣ counter s) (data : List Byte) :
    128 ∣ counter (absorbBody data s) := by
  induction data generalizing s with
  | nil => exact h
  | cons b data ih => exact ih (pushByte_counter_aligned h b)

/-- A buffer that has taken in a byte is not empty (R183). -/
theorem absorbBody_n_pos {s : State} (data : List Byte) (h : s.n.val ≠ 0 ∨ data ≠ []) :
    (absorbBody data s).n.val ≠ 0 := by
  induction data generalizing s with
  | nil => exact h.resolve_right (fun hne => hne rfl)
  | cons b data ih =>
    refine ih (.inl ?_)
    rw [pushByte_n]
    split <;> omega

/-- Absorbing k zero bytes into a buffer with room for them zeroes its next k cells (R183, R211). -/
theorem absorbBody_zeros {k : Nat} {s : State} (h : s.n.val + k = 128) : absorbBody (zeros k) s = pad s := by
  have hk : 128 - s.n.val = k := by omega
  rw [pad, hk]
  induction k generalizing s with
  | zero =>
    have hn : s.n = 128 := Fin.ext h
    rw [← hn]
    rfl
  | succ k ih =>
    have hn : (Fin.ofNat 129 (s.n.val + 1)).val = s.n.val + 1 := Nat.mod_eq_of_lt (by omega)
    have hcell : 127 - k = s.n.val := by omega
    have hz : zeros (k + 1) = 0 :: zeros k := rfl
    rw [hz, absorbBody_cons, pushByte_room s 0 (by omega),
      ih (by rw [appendByte_n, hn]; omega) (by rw [appendByte_n, hn]; omega), zeroCells, hcell]
    rfl

/-! What a command can leave in phase ACTIVE. -/

theorem exec_absorb_active {s : State} (hp : s.phase = .active) (len : Word) (data : List Byte) :
    exec (.absorb len data) s = .next (absorbBody data s) := by
  simp only [exec, execAbsorb, hp]

/-- A command that leaves phase ACTIVE as it found it has absorbed bytes, none perhaps, into the registers as they were or,
a construction, into fresh ones, whose counter is 0. -/
theorem exec_active_cases {i : Instr} {s t : State} (hp : s.phase = .active) (h : exec i s = .next t)
    (ht : t.phase = .active) :
    ∃ u data, t = absorbBody data u ∧ (u = s ∨ u.ds = s.ds ∧ counter u = 0) := by
  rcases exec_cases i s with ⟨hf, _⟩ | ⟨c, _, _, _, e⟩ | ⟨nn, kk, sl, il, key, salt, info, _, _, _, _, e⟩ |
    ⟨len, data, _, _, e⟩ | ⟨rl, _, _, _, e⟩
  · rw [hp] at hf; cases hf
  · rw [e] at h; cases h; cases ht
  · rw [e] at h
    cases h
    refine ⟨newInstance nn kk salt info s, if 0 < kk.toNat then keyBlock key else [], ?_, .inr ⟨rfl, rfl⟩⟩
    split <;> rfl
  · rw [e] at h; cases h; exact ⟨s, data, rfl, .inl rfl⟩
  · rw [e] at h; cases h; cases ht

/-- No command moves an aligned counter off the block boundaries and stays in phase ACTIVE (R42). -/
theorem exec_active_counter_aligned {i : Instr} {s t : State} (hp : s.phase = .active) (h : exec i s = .next t)
    (ht : t.phase = .active) (hc : 128 ∣ counter s) : 128 ∣ counter t := by
  obtain ⟨u, data, rfl, hu⟩ := exec_active_cases hp h ht
  refine absorbBody_counter_aligned ?_ data
  rcases hu with rfl | ⟨_, h0⟩
  · exact hc
  · rw [h0]; exact Nat.dvd_zero 128

/-- A command that empties the buffer and stays in phase ACTIVE has cleared the counter (R48, R124). -/
theorem exec_active_emptied {i : Instr} {s t : State} (hp : s.phase = .active) (h : exec i s = .next t)
    (ht : t.phase = .active) (hs : s.n.val ≠ 0) (hn : t.n.val = 0) : counter t = 0 := by
  obtain ⟨u, data, rfl, hu⟩ := exec_active_cases hp h ht
  obtain rfl : data = [] := by
    by_contra hne
    exact absorbBody_n_pos data (.inr hne) hn
  rcases hu with rfl | ⟨_, h0⟩
  · exact absurd hn hs
  · exact h0

theorem exec_active_ds {i : Instr} {s t : State} (hp : s.phase = .active) (h : exec i s = .next t)
    (ht : t.phase = .active) : t.ds = s.ds := by
  obtain ⟨u, data, rfl, hu⟩ := exec_active_cases hp h ht
  rw [absorbBody_ds]
  rcases hu with rfl | ⟨h0, _⟩
  · rfl
  · exact h0

/-! The three operations that are no command's effect. -/

/-- CTR_ADD of a part of a block leaves the counter off the block boundaries. -/
theorem ctrAdd_not_command {i : Instr} {s t : State} {k : Nat} (hp : s.phase = .active) (h : exec i s = .next t)
    (hk0 : 0 < k) (hk : k < 128) (hc : 128 ∣ counter s) : ctrAdd k s ≠ t := by
  rintro rfl
  have halign := exec_active_counter_aligned hp h hp hc
  rw [counter_ctrAdd s hk.le] at halign
  omega

/-- COMPRESS_FULL empties the buffer and leaves the counter above 0, short of its overflow. -/
theorem compressFull_not_command {i : Instr} {s t : State} (hp : s.phase = .active) (h : exec i s = .next t)
    (hn : s.n.val = 128) (hc : counter s + 128 < 2 ^ 128) : compressFull s ≠ t := by
  rintro rfl
  have hzero := exec_active_emptied hp h hp (by omega) rfl
  rw [compressFull_counter] at hzero
  omega

/-- The emission of a digest byte lengthens DS and leaves the phase. -/
theorem emit_not_command {i : Instr} {s t : State} {bs : List Byte} (hp : s.phase = .active)
    (h : exec i s = .next t) (hbs : bs ≠ []) : emit bs s ≠ t := by
  rintro rfl
  have hds := exec_active_ds hp h hp
  rw [emit_ds, List.append_right_eq_self] at hds
  exact hbs hds

theorem serialize_ne_nil (h : Vector Word 8) {len : Nat} (hlen : 0 < len) : serialize h len ≠ [] := by
  apply List.ne_nil_of_length_pos
  rw [serialize_length]
  omega

/-- An internal operation that updates the state has the effect of a command with the same next state. -/
theorem state_iff_next {u t : State} {o : Host.Outcome State Fault Refusal} (h : o = .next u) :
    Result.state u = .state t ↔ o = .next t := by
  rw [h, Result.state.injEq, Host.Outcome.next.injEq]

/-- Settles O46: the four agreements are the definitions', PAD's by `absorbBody_zeros`; the three differences are in the
counter, in the counter of an emptied buffer, and on DS. -/
theorem internalOperationsAndHostCommands : Obligations.InternalOperationsAndHostCommands := by
  refine ⟨fun s t nn kk sl il key salt info => state_iff_next rfl, fun s hp =>
    ⟨fun t len data => state_iff_next (exec_absorb_active hp len data),
      fun t len b => state_iff_next (exec_absorb_active hp len [b]),
      fun t len => state_iff_next ?_, fun i t h => ⟨?_, ?_, ?_⟩⟩⟩
  · rw [exec_absorb_active hp, absorbBody_zeros (by omega)]
  · intro k hk0 hk hc e
    exact ctrAdd_not_command hp h hk0 hk hc (Result.state.inj e)
  · intro hn hc e
    exact compressFull_not_command hp h hn hc (Result.state.inj e)
  · intro len bs hlen e
    obtain rfl := Result.bytes.inj e
    exact emit_not_command hp h (serialize_ne_nil s.h hlen)

end Sys2Proof.Proofs
end

section
/-! What a step and a command write: DS by FINISH alone, and the "written by" column of R46
(spec/10_state.md R37 and section 5, spec/20_memory.md R57). -/

namespace Sys2Proof.Proofs

open Sys2Proof.Machine

/-- With a key block or without one, an accepted construction is an ABSORB_BODY into the fresh registers (R124). -/
theorem ite_absorbBody_keyBlock (kk : Byte) (key : List Byte) (u : State) :
    (if 0 < kk.toNat then absorbBody (keyBlock key) u else u) =
      absorbBody (if 0 < kk.toNat then keyBlock key else []) u := by
  split <;> rfl

/-- A command leaves DS as it is, or it is a FINISH that finishes the instance (R57). -/
theorem exec_ds_cases {i : Instr} {s t : State} (h : exec i s = .next t) :
    t.ds = s.ds ∨
      ∃ rl, i = .finish rl ∧ s.phase = .active ∧ rl.toNat = s.outputLength.toNat ∧ t = finishBody s := by
  rcases exec_cases i s with ⟨_, e⟩ | ⟨_, _, _, _, e⟩ | ⟨_, _, _, _, _, _, _, _, _, _, _, e⟩ | ⟨_, _, _, _, e⟩ |
    ⟨rl, hi, hp, hl, e⟩ <;> rw [e] at h <;> cases h
  · exact .inl rfl
  · exact .inl rfl
  · exact .inl (by rw [ite_absorbBody_keyBlock, absorbBody_ds, newInstance_ds])
  · exact .inl (absorbBody_ds _ s)
  · exact .inr ⟨rl, hi, hp, hl, rfl⟩

/-- In phase ACTIVE the engine finds on CS the command the decoder finds there (R89). -/
theorem decode_of_active {s : State} {h : Header} {rest rest' : List Byte} {i : Instr} (hp : s.phase = .active)
    (hh : decodeHeader s.cs = .header h rest)
    (hd : decodePayload (payloadAwaited s.phase h) h rest = .instr i rest') : decode s.cs = .instr i rest' := by
  rw [payloadAwaited_eq _ _ (.inr hp)] at hd
  simp only [decode, hh, hd]

/-- Settles O37: only a step that executes a command can touch DS, and of the commands only a FINISH that finishes the
instance does. -/
theorem onlyFinishEmits : Obligations.OnlyFinishEmits := by
  intro s t h
  rcases step_cases s with ⟨_, e⟩ | ⟨_, e⟩ | ⟨_, _, _, _, e⟩ | ⟨_, _, i, rest, _, hh, hd, e⟩ <;> rw [e] at h
  · cases h; exact .inl rfl
  · cases h
  · cases h; exact .inl rfl
  · rcases exec_ds_cases h with hds | ⟨rl, rfl, hp, hl, rfl⟩
    · exact .inl hds
    · exact .inr ⟨hp, rfl, rl, rest, _, decode_of_active hp hh hd, hl, rfl, fun hlen => by
        rw [serialize_length]; exact Nat.min_eq_left hlen⟩

/-- A command that is no construction leaves `output_length` and `f[1]`, and `f[0]` too if it is no FINISH (R39, R40,
R41). -/
theorem exec_instance_registers {i : Instr} {s t : State} (h : exec i s = .next t) :
    i.isConstruction = true ∨
      (t.outputLength = s.outputLength ∧ t.f1 = s.f1 ∧ (t.f0 = s.f0 ∨ ∃ rl, i = .finish rl)) := by
  rcases exec_cases i s with ⟨_, e⟩ | ⟨_, _, _, _, e⟩ | ⟨_, _, _, _, _, _, _, hc, _⟩ | ⟨_, data, _, _, e⟩ |
    ⟨rl, hi, _, _, e⟩
  · rw [e] at h; cases h; exact .inr ⟨rfl, rfl, .inl rfl⟩
  · rw [e] at h; cases h; exact .inr ⟨rfl, rfl, .inl rfl⟩
  · exact .inl hc
  · rw [e] at h; cases h
    exact .inr ⟨absorbBody_outputLength data s, absorbBody_f1 data s, .inl (absorbBody_f0 data s)⟩
  · rw [e] at h; cases h; exact .inr ⟨rfl, rfl, .inr ⟨rl, hi⟩⟩

/-- A command leaves `cause` as it is, or it takes a fault (R246). -/
theorem exec_cause_cases {i : Instr} {s t : State} (h : exec i s = .next t) :
    t.cause = s.cause ∨ t.phase = .fault := by
  rcases exec_cases i s with ⟨_, e⟩ | ⟨_, _, _, _, e⟩ | ⟨_, _, _, _, _, _, _, _, _, _, _, e⟩ | ⟨_, _, _, _, e⟩ |
    ⟨_, _, _, _, e⟩ <;> rw [e] at h <;> cases h
  · exact .inl rfl
  · exact .inr rfl
  · exact .inl (by rw [ite_absorbBody_keyBlock, absorbBody_cause, newInstance_cause])
  · exact .inl (absorbBody_cause _ s)
  · exact .inl rfl

/-- INIT has no key block to absorb, so it writes no cell of the buffer (R125). -/
theorem exec_init_buf {nn : Byte} {s t : State} (h : exec (.init nn) s = .next t) : t.buf = s.buf := by
  obtain rfl : construct nn 0 0 0 [] [] [] s = t := Host.Outcome.next.inj h
  rcases construct_cases nn 0 0 0 [] [] [] s with ⟨_, e⟩ | ⟨_, _, e⟩ | ⟨_, _, _, e⟩ | ⟨_, _, hk, _⟩
  · rw [e]
  · rw [e, takeFault_buf]
  · rw [e, newInstance_buf]
  · exact absurd hk (by decide)

/-- Settles O38: register by register, what changes names the command or the fault. -/
theorem whichCommandWritesWhat : Obligations.WhichCommandWritesWhat := by
  intro i s t h
  refine ⟨exec_cs i s t h, fun hne => ?_, fun hne => ?_, fun hne => ?_, fun hne => ?_, fun hne => ?_, ?_⟩
  · exact (exec_instance_registers h).resolve_right fun ⟨hlen, _, _⟩ => hne hlen
  · exact (exec_instance_registers h).resolve_right fun ⟨_, hf1, _⟩ => hne hf1
  · exact (exec_instance_registers h).imp_right fun ⟨_, _, hf0⟩ => hf0.resolve_left hne
  · exact (exec_cause_cases h).resolve_left hne
  · obtain ⟨rl, hi, _⟩ := (exec_ds_cases h).resolve_left hne
    exact ⟨rl, hi⟩
  · rintro hne nn rfl
    exact hne (exec_init_buf h)

end Sys2Proof.Proofs
end

section
/-! STATUS field by field (spec/10_state.md R31). -/

namespace Sys2Proof.Proofs

open Sys2Proof.Machine

theorem status_phase (s : State) : (status s).extractLsb' 0 2 = s.phase.code :=
  BitVec.extractLsb'_append_eq_right

theorem status_zero (s : State) : (status s).extractLsb' 2 2 = 0#2 :=
  (BitVec.extractLsb'_append_eq_of_le (Nat.le_refl 2)).trans BitVec.extractLsb'_append_eq_right

theorem status_cause (s : State) : (status s).extractLsb' 4 4 = s.cause.code :=
  (BitVec.extractLsb'_append_eq_of_le (by decide)).trans BitVec.extractLsb'_append_eq_left

/-- Settles O24: the fields are the codes, and the codes are the tables' of R28 and R241. -/
theorem statusShowsPhaseAndCause : Obligations.StatusShowsPhaseAndCause := by
  intro s
  rw [status_phase, status_zero, status_cause]
  refine ⟨?_, rfl, ?_⟩
  · cases s.phase <;> rfl
  · cases s.cause <;> rfl

end Sys2Proof.Proofs
end

section
/-! The buffer as message words (spec/20_memory.md R53, R59, spec/30_encoding.md R97). -/

namespace Sys2Proof.Proofs

open Sys2Proof.Machine

/-- A slice of the whole block is the buffer's cells from where the slice starts (R51). -/
theorem wholeBlock_slice (m : Memory) {a n : Nat} (h : a + n ≤ 128) :
    ((wholeBlock m).drop a).take n = (List.range n).map fun k => readByte m (Fin.ofNat 128 (a + k)) := by
  apply List.ext_getElem?
  intro k
  by_cases hk : k < n
  · rw [List.getElem?_take_of_lt hk, List.getElem?_drop, wholeBlock, bufPrefix_getElem? _ _ _ (by omega)]
    simp [hk]
  · rw [List.getElem?_eq_none (by simp; omega), List.getElem?_eq_none (by simp; omega)]

/-- The address of message word j is below 121 (R53). -/
theorem wordAddress_val (j : Fin 16) : (Fin.ofNat 121 (8 * j.val)).val = 8 * j.val :=
  Nat.mod_eq_of_lt (by omega)

/-- Message word j of the buffer is the buffer's word at `8j` (R53, R59). -/
theorem messageWords_wholeBlock_get (m : Memory) (j : Fin 16) :
    (messageWords (wholeBlock m))[j] = readWord m (Fin.ofNat 121 (8 * j.val)) := by
  rw [messageWords_get, wholeBlock_slice m (by omega), readWord, wordAddress_val]

/-- Byte k of a word read is the cell k places on (R53). -/
theorem byteOf_readWord (m : Memory) (a : Fin 121) {k : Nat} (hk : k < 8) :
    byteOf (readWord m a) k = readByte m (Fin.ofNat 128 (a.val + k)) := by
  rw [readWord, byteOf_le64 _ (by simp)]
  simp [hk]

/-- Settles O34: each message word is a word read, whose bytes are the cells. -/
theorem messageWordsOfTheBuffer : Obligations.MessageWordsOfTheBuffer := by
  refine fun m j => ⟨fun k hk => ?_, messageWords_wholeBlock_get m j⟩
  have hbyte := byteOf_readWord m (Fin.ofNat 121 (8 * j.val)) hk
  rwa [byteOf, wordAddress_val, ← messageWords_wholeBlock_get] at hbyte

end Sys2Proof.Proofs
end

section
/-! The frame layer both ways: a frame decodes to its command, and what decodes to a command is its frame
(spec/30_encoding.md R81 to R89). -/

namespace Sys2Proof.Proofs

open Sys2Proof.Machine

/-- A whole frame decodes by its header, then by its payload. -/
theorem decode_headerBytes (h : Header) (bs : List Byte) :
    decode (headerBytes h ++ bs) = decodePayload (headerInRange h) h bs := by
  simp only [decode, decodeHeader_headerBytes]

/-- Settles O5: the header of the frame decodes to itself, and the payload completes the command. -/
theorem decodeOfEncodedCommand : Obligations.DecodeOfEncodedCommand := by
  intro i rest hw
  rw [encode_eq, List.append_assoc, decode_headerBytes, decodePayload_payloadBytes hw]

/-- Bytes that decode to a header begin with that header's bytes (R82). -/
theorem eq_headerBytes_of_decodeHeader {bs rest : List Byte} {h : Header} (hd : decodeHeader bs = .header h rest) :
    bs = headerBytes h ++ rest := by
  rcases decodeHeader_header bs h rest hd with ⟨_, rfl, rfl⟩ | ⟨_, _, rfl, rfl⟩ | ⟨_, _, _, _, rfl, rfl⟩ |
    ⟨_, _, _, _, _, _, _, _, rfl, rfl⟩ | ⟨_, rfl, rfl⟩
  · rfl
  · rfl
  · rfl
  · rw [headerBytes, le64Bytes_le64]
  · rfl

/-- The key of an INIT_MAC has the length its frame awaits, none where the header is out of range (R84, R89). -/
theorem wellFormed_initMac (nn kk : Byte) (key : List Byte) :
    (Instr.initMac nn kk key).WellFormed = true ↔
      key.length = bif headerInRange (.initMac nn kk) then kk.toNat else 0 := by
  cases hr : headerInRange (.initMac nn kk) <;> simp [Instr.WellFormed, hr]

/-- The strings of an INIT_KDF have the lengths its frame awaits, none where the header is out of range (R85, R89). -/
theorem wellFormed_initKdf (nn kk sl il : Byte) (key salt info : List Byte) :
    (Instr.initKdf nn kk sl il key salt info).WellFormed = true ↔
      (key.length = bif headerInRange (.initKdf nn kk sl il) then kk.toNat else 0) ∧
      (salt.length = bif headerInRange (.initKdf nn kk sl il) then sl.toNat else 0) ∧
      info.length = bif headerInRange (.initKdf nn kk sl il) then il.toNat else 0 := by
  cases hr : headerInRange (.initKdf nn kk sl il) <;> simp [Instr.WellFormed, hr, and_assoc]

/-- A payload that completes a command is the payload of that command, which is well formed (R82, R88, R89). -/
theorem payload_of_decodePayload {h : Header} {bs rest : List Byte} {i : Instr}
    (hd : decodePayload (headerInRange h) h bs = .instr i rest) :
    i.header = h ∧ i.WellFormed = true ∧ bs = payloadBytes i ++ rest := by
  cases h with
  | init nn => cases hd; exact ⟨rfl, rfl, rfl⟩
  | finish rl => cases hd; exact ⟨rfl, rfl, rfl⟩
  | initMac nn kk =>
    simp only [decodePayload] at hd
    split at hd
    · cases hd
    next hs =>
      cases hd
      obtain ⟨hbs, hlen⟩ := (splitPayload_some _ _ _ _).1 hs
      exact ⟨rfl, (wellFormed_initMac ..).2 hlen, hbs⟩
  | absorb len =>
    simp only [decodePayload] at hd
    split at hd
    · cases hd
    next hs =>
      cases hd
      obtain ⟨hbs, hlen⟩ := (splitPayload_some _ _ _ _).1 hs
      exact ⟨rfl, beq_iff_eq.2 hlen, hbs⟩
  | initKdf nn kk sl il =>
    simp only [decodePayload] at hd
    split at hd
    · cases hd
    next hkey =>
      split at hd
      · cases hd
      next hsalt =>
        split at hd
        · cases hd
        next hinfo =>
          cases hd
          obtain ⟨rfl, hkk⟩ := (splitPayload_some _ _ _ _).1 hkey
          obtain ⟨rfl, hsl⟩ := (splitPayload_some _ _ _ _).1 hsalt
          obtain ⟨rfl, hil⟩ := (splitPayload_some _ _ _ _).1 hinfo
          exact ⟨rfl, (wellFormed_initKdf ..).2 ⟨hkk, hsl, hil⟩, by simp [payloadBytes]⟩

/-- Settles O6: the bytes are the decoded header's and then the payload of the command it completes. -/
theorem decodedBytesAreTheFrame : Obligations.DecodedBytesAreTheFrame := by
  intro bs i rest hd
  cases hh : decodeHeader bs with
  | incomplete => simp [decode, hh] at hd
  | illegal op rest' => simp [decode, hh] at hd
  | header h payload =>
    obtain rfl := eq_headerBytes_of_decodeHeader hh
    rw [decode_headerBytes] at hd
    obtain ⟨rfl, hw, rfl⟩ := payload_of_decodePayload hd
    exact ⟨hw, by rw [encode_eq, List.append_assoc]⟩

end Sys2Proof.Proofs
end

section
/-! The byte layouts of the parameter block (spec/30_encoding.md R92) and of the digest (R99). -/

namespace Sys2Proof.Proofs

open Sys2Proof.Machine

/-- Byte j of a field is the string's, or zero past its end (R94, R95). -/
theorem paramField_getElem? (bs : List Byte) {j : Nat} (hj : j < 16) :
    (paramField bs)[j]? = some (bs.getD j 0) := by
  rw [paramField, List.getElem?_take_of_lt hj]
  by_cases hin : j < bs.length
  · rw [List.getElem?_append_left hin]
    simp [hin]
  · have hout : bs.length ≤ j := by omega
    rw [List.getElem?_append_right hout, zeros_getElem?, if_pos (by omega)]
    simp [hout]

/-- The block past its first four bytes is the reserved zeros, the salt field and the info field (R92). -/
theorem pBuild_getElem?_fields (nn kk : Byte) (salt info : List Byte) (j : Nat) :
    (pBuild nn kk salt info)[4 + j]? = (zeros 28 ++ (paramField salt ++ paramField info))[j]? := by
  rw [Nat.add_comm, pBuild]
  simp

/-- The bytes between depth and salt are zero (R92). -/
theorem pBuild_reserved (nn kk : Byte) (salt info : List Byte) {j : Nat} (h4 : 4 ≤ j) (h32 : j < 32) :
    (pBuild nn kk salt info)[j]? = some 0 := by
  obtain ⟨k, rfl⟩ := Nat.exists_eq_add_of_le h4
  rw [pBuild_getElem?_fields, List.getElem?_append_left (by simp; omega), zeros_getElem?, if_pos (by omega)]

/-- The salt field is at offset 32 (R92). -/
theorem pBuild_salt (nn kk : Byte) (salt info : List Byte) {j : Nat} (hj : j < 16) :
    (pBuild nn kk salt info)[32 + j]? = some (salt.getD j 0) := by
  have hoff : 32 + j = 4 + (28 + j) := by omega
  rw [hoff, pBuild_getElem?_fields, List.getElem?_append_right (by simp), zeros_length, Nat.add_sub_cancel_left,
    List.getElem?_append_left (by simpa using hj), paramField_getElem? salt hj]

/-- The info field is at offset 48 (R92). -/
theorem pBuild_info (nn kk : Byte) (salt info : List Byte) {j : Nat} (hj : j < 16) :
    (pBuild nn kk salt info)[48 + j]? = some (info.getD j 0) := by
  have hoff : 48 + j = 4 + (28 + (16 + j)) := by omega
  rw [hoff, pBuild_getElem?_fields, List.getElem?_append_right (by simp), zeros_length, Nat.add_sub_cancel_left,
    List.getElem?_append_right (by simp), paramField_length, Nat.add_sub_cancel_left, paramField_getElem? info hj]

/-- Settles O33: four literal bytes, then field by field. -/
theorem parameterBlockLayout : Obligations.ParameterBlockLayout :=
  fun nn kk salt info _ _ => ⟨pBuild_length nn kk salt info, rfl, rfl, rfl, rfl,
    fun _ h4 h32 => pBuild_reserved nn kk salt info h4 h32, fun _ hj => pBuild_salt nn kk salt info hj,
    fun _ hj => pBuild_info nn kk salt info hj⟩

/-- Eight bytes of S from `8i` on are the bytes of `h[i]` (R99). -/
theorem digestBytes_slice (h : Vector Word 8) (i : Fin 8) :
    ((digestBytes h).drop (8 * i.val)).take 8 = le64Bytes h[i] := by
  revert i
  simp only [Fin.forall_fin_succ]
  exact ⟨rfl, rfl, rfl, rfl, rfl, rfl, rfl, rfl, fun i => i.elim0⟩

/-- Byte `8i + k` of S is byte k of `h[i]` (R99). -/
theorem digestBytes_getElem? (h : Vector Word 8) (i : Fin 8) {k : Nat} (hk : k < 8) :
    (digestBytes h)[8 * i.val + k]? = some (byteOf h[i] k) := by
  rw [← le64Bytes_getElem? _ hk, ← digestBytes_slice, List.getElem?_take_of_lt hk, List.getElem?_drop]

/-- Settles O35: the digest's bytes are those of S, cut at the digest length. -/
theorem digestSerialisation : Obligations.DigestSerialisation := by
  refine fun h len hlen => ⟨by simp [hlen], fun i k hk hlt => ?_⟩
  rw [serialize, List.getElem?_take_of_lt hlt, digestBytes_getElem? h i hk, byteOf]

end Sys2Proof.Proofs
end

section
/-! The parameter block as the words H_INIT reads, and the chaining value it gives, word by word
(spec/40_parameter_block_builder.md R121, R122). -/

namespace Sys2Proof.Proofs

open Sys2Proof.Machine

@[simp] theorem zeros_take (k j : Nat) : (zeros k).take j = zeros (min j k) := List.take_replicate

@[simp] theorem zeros_drop (k j : Nat) : (zeros k).drop j = zeros (k - j) := List.drop_replicate

@[simp] theorem le64_zeros (k : Nat) : le64 (zeros k) = 0#64 := by
  have hzero : leNat (zeros k) = 0 := by
    induction k with
    | zero => rfl
    | succ k ih => simpa [zeros, List.replicate_succ, leNat] using ih
  rw [le64, hzero]

/-- A string that fits its field is followed there by zero bytes (R94, R95). -/
theorem paramField_of_le {bs : List Byte} (h : bs.length ≤ 16) : paramField bs = bs ++ zeros (16 - bs.length) := by
  rw [paramField, List.take_append, List.take_of_length_le h, zeros_take, Nat.min_eq_left (Nat.sub_le ..)]

/-- Word 0 of the parameter block: digest length, key length, fan-out 1, depth 1 (R92, R96). -/
theorem le64_parameters (nn kk : Byte) :
    le64 [nn, kk, 1, 1, 0, 0, 0, 0] = 0x01010000#64 + (kk.setWidth 64 <<< 8) + nn.setWidth 64 := by
  have hn := nn.isLt
  have hk := kk.isLt
  have h0 : (0 : Byte).toNat = 0 := rfl
  have h1 : (1 : Byte).toNat = 1 := rfl
  apply BitVec.eq_of_toNat_eq
  simp only [le64, leNat, h0, h1, BitVec.toNat_ofNat, BitVec.toNat_add, BitVec.toNat_shiftLeft, BitVec.toNat_setWidth,
    Nat.shiftLeft_eq]
  omega

/-- The eight slices of the parameter block that H_INIT reads (R92, R122). -/
theorem hInit_slices (nn kk : Byte) (salt info : List Byte) :
    hInit (pBuild nn kk salt info) =
      #v[iv[0] ^^^ le64 [nn, kk, 1, 1, 0, 0, 0, 0],
        iv[1] ^^^ le64 (zeros 8), iv[2] ^^^ le64 (zeros 8), iv[3] ^^^ le64 (zeros 8),
        iv[4] ^^^ le64 ((paramField salt ++ paramField info).take 8),
        iv[5] ^^^ le64 (((paramField salt ++ paramField info).drop 8).take 8),
        iv[6] ^^^ le64 (((paramField salt ++ paramField info).drop 16).take 8),
        iv[7] ^^^ le64 (((paramField salt ++ paramField info).drop 24).take 8)] := rfl

/-- The lengths enter `h[0]`, the salt `h[4]` and `h[5]`, the info `h[6]` and `h[7]` (R122, R127). -/
theorem hInit_pBuild (nn kk : Byte) (salt info : List Byte) :
    hInit (pBuild nn kk salt info) =
      #v[iv[0] ^^^ (0x01010000#64 + (kk.setWidth 64 <<< 8) + nn.setWidth 64), iv[1], iv[2], iv[3],
        iv[4] ^^^ le64 ((paramField salt).take 8), iv[5] ^^^ le64 ((paramField salt).drop 8),
        iv[6] ^^^ le64 ((paramField info).take 8), iv[7] ^^^ le64 ((paramField info).drop 8)] := by
  rw [hInit_slices, le64_parameters]
  simp [List.take_append, List.drop_append, List.take_of_length_le, List.drop_of_length_le]

/-- Without salt and info only `h[0]` differs from IV (R125, R126). -/
theorem hInit_pBuild_plain (nn kk : Byte) :
    hInit (pBuild nn kk [] []) =
      #v[iv[0] ^^^ (0x01010000#64 + (kk.setWidth 64 <<< 8) + nn.setWidth 64),
        iv[1], iv[2], iv[3], iv[4], iv[5], iv[6], iv[7]] := by
  simp [hInit_pBuild, paramField_of_le]

end Sys2Proof.Proofs
end

section
/-! What the construction commands leave (spec/40_parameter_block_builder.md R124 to R129): fresh registers, and a buffer
that holds the key's block alone. -/

namespace Sys2Proof.Proofs

open Sys2Proof.Machine Sys2Proof.Safety

/-- Settles O11: INIT is CONSTRUCT without a key, so it ends at the register writes. -/
theorem initEffect : Obligations.InitEffect := by
  refine fun s nn => ⟨rfl, fun hp h1 h64 => ?_, fun hp hnn => ?_, fun hp => exec_fault hp _⟩
  · have hr := (paramsInRange_iff nn 0 0 0).2 ⟨⟨h1, h64⟩, by decide, by decide, by decide⟩
    have e : exec (.init nn) s = .next (newInstance nn 0 [] [] s) :=
      congrArg _ (construct_accepted _ _ _ _ _ _ _ _ hp hr)
    rw [e, newInstance, hInit_pBuild_plain, BitVec.ofNat_toNat]
    rfl
  · have hr : paramsInRange nn 0 0 0 = false := by
      rw [Bool.eq_false_iff, ne_eq, paramsInRange_iff]; omega
    exact congrArg _ (construct_rejected _ _ _ _ _ _ _ _ hp hr)

/-! The hash that a construction command starts, before any message. -/

/-- An input that fits the buffer waits there, uncompressed and uncounted (R183). -/
theorem Absorbed.uncompressed {h : Vector Word 8} {done : Nat} {input : List Byte} {s : State}
    (hs : Absorbed h done input s) (hlen : input.length ≤ 128) :
    s.h = h ∧ s.t0 = countLow done ∧ s.t1 = countHigh done ∧ s.n.val = input.length ∧
      bufPrefix s.buf s.n.val = input := by
  obtain ⟨chain, low, high, held, rest⟩ := hs
  rw [fullBlocks_of_le hlen] at chain low high held rest
  exact ⟨chain, low, high, held, rest⟩

/-- Before any message only the key's block has been taken in (R123, R124). -/
theorem keyedInput_nil (key : List Byte) : keyedInput key [] = if key = [] then [] else keyBlock key :=
  List.append_nil _

/-- The key's block fits the buffer (R123). -/
theorem keyedInput_nil_length {key : List Byte} (hk : key.length ≤ 64) : (keyedInput key []).length ≤ 128 := by
  rw [keyedInput_nil]
  split
  · exact Nat.zero_le _
  · exact (keyBlock_length key (by omega)).le

/-- `output_length` is `nn` in its seven bits (R27). -/
theorem Running.outputLength_eq {nn : Byte} {key salt info message : List Byte} {s t : State}
    (hr : Running nn key salt info message s t) : t.outputLength = BitVec.ofNat 7 nn.toNat := by
  rw [← hr.length, BitVec.ofNat_toNat, BitVec.setWidth_eq]

/-- Without a key CONSTRUCT writes no cell of the buffer (R124). -/
theorem construct_buf_of_no_key {kk : Byte} (hk : kk.toNat = 0) (nn sl il : Byte) (key salt info : List Byte)
    (s : State) : (construct nn kk sl il key salt info s).buf = s.buf := by
  rcases construct_cases nn kk sl il key salt info s with ⟨_, e⟩ | ⟨_, _, e⟩ | ⟨_, _, _, e⟩ | ⟨_, _, hk', _⟩
  · rw [e]
  · rw [e, takeFault_buf]
  · rw [e, newInstance_buf]
  · omega

/-- Settles O13: the command starts a hash, of which the key's block alone has been taken in. -/
theorem initKdfEffect : Obligations.InitKdfEffect := by
  intro s nn key salt info hp h1 h64 hk hs hi
  obtain ⟨t, hexec, hrun⟩ := exec_initKdfOf_running hp h1 h64 hk hs hi
  obtain ⟨hh, h0, h1, hn, hbuf⟩ := hrun.absorbed.uncompressed (keyedInput_nil_length hk)
  have hkk : (BitVec.ofNat 8 key.length).setWidth 64 = BitVec.ofNat 64 key.length :=
    BitVec.setWidth_ofNat_of_le_of_lt (by decide) (by omega)
  refine ⟨t, hexec, ?_, h0, h1, hrun.lastBlock, hrun.tree, hrun.outputLength_eq, hrun.phase, hrun.cause,
    exec_cs _ _ _ hexec, hrun.ds, fun hkey => ?_, fun hkey => ?_⟩
  · rw [hh, hInit_pBuild, hkk, paramField_of_le hs, paramField_of_le hi]
  · have hne : key ≠ [] := List.ne_nil_of_length_pos hkey
    rw [keyedInput_nil, if_neg hne] at hn hbuf
    have hfull : t.n.val = 128 := hn.trans (keyBlock_length key (by omega))
    rw [hfull] at hbuf
    exact ⟨hfull, hbuf⟩
  · obtain rfl := List.length_eq_zero_iff.1 hkey
    obtain rfl := Host.Outcome.next.inj hexec
    exact ⟨hn, construct_buf_of_no_key rfl ..⟩

/-- Settles O12: INIT_MAC is INIT_KDF with empty salt and info, and INIT where its key is empty too. -/
theorem initMacEffect : Obligations.InitMacEffect := by
  intro s nn key hp h1 h64 hk
  obtain ⟨t, hexec, hh, h0, h1, hf0, hf1, hlen, hphase, hcause, hcs, hds, hkeyed, hunkeyed⟩ :=
    initKdfEffect s nn key [] [] hp h1 h64 hk (Nat.zero_le _) (Nat.zero_le _)
  refine ⟨fun hkey => ?_, fun hkey => ?_⟩
  · obtain ⟨hn, hblock⟩ := hkeyed hkey
    exact ⟨t, hexec, by simpa using hh, h0, h1, hf0, hf1, hn, hblock, hlen, hphase, hcause, hcs, hds⟩
  · obtain ⟨hn, hbuf⟩ := hunkeyed hkey
    obtain rfl := List.length_eq_zero_iff.1 hkey
    exact ⟨rfl, t, hexec, hn, hbuf, hphase⟩

/-- Settles O15: no command touches CS, FINISH alone touches DS, and only a key's block is written to the buffer. -/
theorem constructionFrame : Obligations.ConstructionFrame := by
  intro i s t hi h
  refine ⟨exec_cs i s t h, ?_, fun hp => (exec_cause_cases h).resolve_right hp, fun hform a => ?_⟩
  · rcases exec_ds_cases h with hds | ⟨rl, rfl, _⟩
    · exact hds
    · cases hi
  · have hbuf : t.buf = s.buf := by
      rcases hform with ⟨nn, rfl⟩ | ⟨nn, key, rfl⟩ | ⟨nn, sl, il, key, salt, info, rfl⟩ <;>
        obtain rfl := Host.Outcome.next.inj h <;> exact construct_buf_of_no_key rfl ..
    rw [hbuf]

/-- A well-formed construction command that is accepted is INIT_KDF of strings that fit, absent ones empty
(R124, R125, R126, R127). -/
theorem exec_construction_eq_initKdfOf {i : Instr} {s t : State} (hi : i.isConstruction = true)
    (hw : i.WellFormed = true) (hp : s.phase ≠ .fault) (h : exec i s = .next t) (ht : t.phase ≠ .fault) :
    ∃ nn key salt info, (1 ≤ nn.toNat ∧ nn.toNat ≤ 64) ∧ key.length ≤ 64 ∧ salt.length ≤ 16 ∧ info.length ≤ 16 ∧
      ∀ u, exec i u = exec (initKdfOf nn key salt info) u := by
  obtain ⟨nn, kk, sl, il, key, salt, info, he, _, hlen⟩ := exec_construction i hi
  have hr : paramsInRange nn kk sl il = true := by
    by_contra hr
    rw [he, construct_rejected _ _ _ _ _ _ _ _ hp (Bool.eq_false_iff.2 hr)] at h
    cases h
    exact ht rfl
  obtain ⟨hk, hs, hinfo⟩ := hlen hw hr
  obtain ⟨hn, hkk, hsl, hil⟩ := (paramsInRange_iff nn kk sl il).1 hr
  refine ⟨nn, key, salt, info, hn, hk.trans_le hkk, hs.trans_le hsl, hinfo.trans_le hil, fun u => ?_⟩
  rw [he, initKdfOf, hk, hs, hinfo]
  simp only [BitVec.ofNat_toNat, BitVec.setWidth_eq]
  rfl

/-- Settles O16: from either state the command starts the same hash, and what a hash has taken in fixes its registers. -/
theorem reconstructionAbandonsTheInstance : Obligations.ReconstructionAbandonsTheInstance := by
  intro i s s' t t' hi hw hp hp' h h' ht
  obtain ⟨nn, key, salt, info, ⟨hn1, hn64⟩, hk, hs, hinfo, heq⟩ := exec_construction_eq_initKdfOf hi hw hp h ht
  obtain ⟨u, hu, hrun⟩ := exec_initKdfOf_running hp hn1 hn64 hk hs hinfo
  obtain ⟨u', hu', hrun'⟩ := exec_initKdfOf_running hp' hn1 hn64 hk hs hinfo
  obtain rfl := Host.Outcome.next.inj (h.symm.trans ((heq s).trans hu))
  obtain rfl := Host.Outcome.next.inj (h'.symm.trans ((heq s').trans hu'))
  obtain ⟨hh, h0, h1, hn, hbuf⟩ := hrun.absorbed.uncompressed (keyedInput_nil_length hk)
  obtain ⟨hh', h0', h1', hn', hbuf'⟩ := hrun'.absorbed.uncompressed (keyedInput_nil_length hk)
  have hnn : t.n = t'.n := Fin.ext (hn.trans hn'.symm)
  refine ⟨hh.trans hh'.symm, h0.trans h0'.symm, h1.trans h1'.symm, hrun.lastBlock.trans hrun'.lastBlock.symm,
    hrun.tree.trans hrun'.tree.symm, hnn, hrun.outputLength_eq.trans hrun'.outputLength_eq.symm, hrun'.phase, ?_⟩
  rw [hbuf, hnn, hbuf']

end Sys2Proof.Proofs
end

section
/-! G, the schedule of its applications, and F (spec/41_compression_function.md R151 to R154). -/

namespace Sys2Proof.Proofs

open Sys2Proof.Machine

/-! One application of G. -/

/-- The four indices of the working vector that an application of G reads and writes (R151). -/
def indices (q : Quad) : List (Fin 16) := [q.a, q.b, q.c, q.d]

/-- Each word after G is the last one written at its index, or else the word that stood there (R151). -/
theorem mixG_get (v : Vector Word 16) (q : Quad) (x y : Word) (k : Fin 16) :
    (mixG v q x y)[k] =
      let r := mixWords v[q.a] v[q.b] v[q.c] v[q.d] x y
      if q.d = k then r.2.2.2 else if q.c = k then r.2.2.1 else if q.b = k then r.2.1 else
        if q.a = k then r.1 else v[k] := by
  simp only [mixG, Fin.getElem_fin, Vector.getElem_set, Fin.val_inj]

/-- G leaves the words at the other indices (R151). -/
theorem mixG_get_of_notMem {q : Quad} {k : Fin 16} (hk : k ∉ indices q) (v : Vector Word 16) (x y : Word) :
    (mixG v q x y)[k] = v[k] := by
  simp only [indices, List.mem_cons, List.not_mem_nil, or_false, not_or] at hk
  obtain ⟨ha, hb, hc, hd⟩ := hk
  simp only [mixG_get, if_neg (Ne.symm ha), if_neg (Ne.symm hb), if_neg (Ne.symm hc), if_neg (Ne.symm hd)]

/-- What G writes depends on the message words and the words at its indices alone (R151). -/
theorem mixG_get_congr {q : Quad} {v w : Vector Word 16} (h : ∀ k ∈ indices q, v[k] = w[k]) (x y : Word)
    {k : Fin 16} (hk : k ∈ indices q) : (mixG v q x y)[k] = (mixG w q x y)[k] := by
  have ha : v[q.a] = w[q.a] := h _ (by simp [indices])
  have hb : v[q.b] = w[q.b] := h _ (by simp [indices])
  have hc : v[q.c] = w[q.c] := h _ (by simp [indices])
  have hd : v[q.d] = w[q.d] := h _ (by simp [indices])
  rw [mixG_get, mixG_get, ha, hb, hc, hd, h k hk]

/-- Settles O28: at distinct indices no line's result is overwritten. -/
theorem mixingSubStep : Obligations.MixingSubStep := by
  intro v a b c d x y hab hac had hbc hbd hcd a1 d1 c1 b1 a2 d2 c2 b2 ea1 ed1 ec1 eb1 ea2 ed2 ec2 eb2
  have lines : mixWords v[a] v[b] v[c] v[d] x y = (a2, b2, c2, d2) := by
    simp only [mixWords, ea2, eb2, ec2, ed2, eb1, ec1, ed1, ea1]
  refine ⟨?_, ?_, ?_, ?_, fun k ha hb hc hd => mixG_get_of_notMem (by simp [indices, ha, hb, hc, hd]) v x y⟩
  · simp only [mixG_get, lines, if_neg had.symm, if_neg hac.symm, if_neg hab.symm, if_pos]
  · simp only [mixG_get, lines, if_neg hbd.symm, if_neg hbc.symm, if_pos]
  · simp only [mixG_get, lines, if_neg hcd.symm, if_pos]
  · simp only [mixG_get, lines, if_pos]

/-! Two applications of G. -/

/-- Applications of G that share no index commute (R153). -/
theorem mixG_comm {p q : Quad} (h : (indices p).Disjoint (indices q)) (v : Vector Word 16) (x y x' y' : Word) :
    mixG (mixG v p x y) q x' y' = mixG (mixG v q x' y') p x y := by
  refine Vector.ext fun n hn => ?_
  obtain ⟨k, rfl⟩ : ∃ k : Fin 16, k.val = n := ⟨⟨n, hn⟩, rfl⟩
  change (mixG (mixG v p x y) q x' y')[k] = (mixG (mixG v q x' y') p x y)[k]
  by_cases hp : k ∈ indices p
  · rw [mixG_get_of_notMem (h hp)]
    exact mixG_get_congr (fun j hj => (mixG_get_of_notMem (h hj) v x' y').symm) x y hp
  · rw [mixG_get_of_notMem hp (mixG v q x' y')]
    by_cases hq : k ∈ indices q
    · exact mixG_get_congr (fun j hj => mixG_get_of_notMem (h.symm hj) v x y) x' y' hq
    · rw [mixG_get_of_notMem hq, mixG_get_of_notMem hq, mixG_get_of_notMem hp]

/-- Two columns share no index, nor do two diagonals (R103). -/
theorem quads_disjoint : ∀ i j : Fin 8, (i.val < 4 ∧ j.val < 4) ∨ (4 ≤ i.val ∧ 4 ≤ j.val) → i ≠ j →
    (indices quads[i]).Disjoint (indices quads[j]) := by
  simp only [List.disjoint_left]
  decide

/-- Settles O30: different sub-steps of one kind share no index. -/
theorem columnsCommuteAndDiagonalsCommute : Obligations.ColumnsCommuteAndDiagonalsCommute := by
  intro v m r i j hij
  by_cases h : i = j
  · rw [h]
  · exact mixG_comm (quads_disjoint i j hij h) v _ _ _ _

/-! The 96 applications of G in F. -/

/-- A sequence in which each value comes from the one before it ends at the fold over its indices. -/
theorem eq_foldl_finRange {α : Type} (n : Nat) (f : α → Fin n → α) (w : Nat → α)
    (h : ∀ i : Fin n, w (i.val + 1) = f (w i.val) i) : w n = (List.finRange n).foldl f (w 0) := by
  induction n with
  | zero => rfl
  | succ n ih =>
    rw [List.finRange_succ_last, List.foldl_append, List.foldl_map,
      ← ih (fun x i => f x i.castSucc) fun i => h i.castSucc]
    exact h (Fin.last n)

/-- A sequence that goes on by the eight sub-steps of round r goes from the round's start to its end (R153). -/
theorem round_of_subSteps {m : Vector Word 16} {r : Fin 12} {w : Nat → Vector Word 16}
    (h : ∀ i : Fin 8, w (i.val + 1) = subStep m r (w i.val) i) : w 8 = round m (w 0) r :=
  eq_foldl_finRange 8 (subStep m r) w h

/-- A sequence that goes on by the twelve rounds ends where they all lead (R154). -/
theorem allRounds_of_rounds {m : Vector Word 16} {w : Nat → Vector Word 16}
    (h : ∀ r : Fin 12, w (r.val + 1) = round m (w r.val) r) : w 12 = allRounds m (w 0) :=
  eq_foldl_finRange 12 (round m) w h

/-- A sequence that goes on by the 96 sub-steps ends where the twelve rounds lead (R153, R154). -/
theorem allRounds_of_subSteps {m : Vector Word 16} {v : Nat → Vector Word 16}
    (h : ∀ (r : Fin 12) (i : Fin 8), v (8 * r.val + i.val + 1) = subStep m r (v (8 * r.val + i.val)) i) :
    v 96 = allRounds m (v 0) :=
  allRounds_of_rounds (w := fun r => v (8 * r)) fun r =>
    round_of_subSteps (w := fun i => v (8 * r.val + i)) (h r)

/-- Each word of F is the chaining value's, with the two halves of the last working vector (R154). -/
theorem compressF_get (h : Vector Word 8) (block : List Byte) (t0 t1 f0 f1 : Word) (i : Fin 8) :
    (compressF h block t0 t1 f0 f1)[i] =
      h[i] ^^^ (allRounds (messageWords block) (initialVector h t0 t1 f0 f1))[i.val] ^^^
        (allRounds (messageWords block) (initialVector h t0 t1 f0 f1))[i.val + 8] :=
  Vector.getElem_ofFn i.isLt

/-- Settles O29: by the tables of R103 and R106, the steps from one vector to the next are F's sub-steps. -/
theorem compressionFollowsTheSchedule : Obligations.CompressionFollowsTheSchedule := by
  refine ⟨rfl, fun h block t0 t1 f0 f1 v start next i => ?_⟩
  have steps (r : Fin 12) (j : Fin 8) :
      v (8 * r.val + j.val + 1) = subStep (messageWords block) r (v (8 * r.val + j.val)) j := by
    rw [next r j _ _ _ _ _ _ (quadTable_get j) (scheduleTable_get r j), ← messageWords_get, ← messageWords_get]
    rfl
  have last : v 96 = allRounds (messageWords block) (initialVector h t0 t1 f0 f1) := by
    rw [allRounds_of_subSteps steps, start]
    rfl
  rw [last]
  exact compressF_get h block t0 t1 f0 f1 i

end Sys2Proof.Proofs
end

section
/-! The counter's addition and its carry (spec/42_block_buffer_manager.md R181). -/

namespace Sys2Proof.Proofs

open Sys2Proof.Machine Sys2Proof.Safety

/-- The low word falls below the addend exactly when the sum carries out of it. -/
theorem ctrAdd_t0_lt_iff (s : State) {k : Nat} (hk : k ≤ 128) :
    (ctrAdd k s).t0.toNat < k ↔ 2 ^ 64 ≤ s.t0.toNat + k := by
  have ht := s.t0.isLt
  rw [ctrAdd_t0, BitVec.toNat_ofNat]
  omega

/-- The high word changes exactly when the sum carries into it: a carry of 1 never wraps back to the same word. -/
theorem ctrAdd_t1_ne_iff (s : State) (k : Nat) : (ctrAdd k s).t1 ≠ s.t1 ↔ 2 ^ 64 ≤ s.t0.toNat + k := by
  rw [ctrAdd_t1]
  split
  case isTrue hcarry => exact iff_of_true (by simp) hcarry
  case isFalse hcarry => exact iff_of_false (by simp) hcarry

/-- A counter at a block boundary has its low word at one (R42). -/
theorem t0_aligned {s : State} (h : 128 ∣ counter s) : 128 ∣ s.t0.toNat := by
  rw [counter] at h
  omega

/-- Settles O21: the counter is the two halves of a byte count, and an aligned low word that carries under 128 is the last
multiple of 128 below 2^64. -/
theorem counterAddition : Obligations.CounterAddition := by
  intro s k hk
  refine ⟨counter_ctrAdd s hk, ?_, ?_, rfl, fun hc => ?_⟩
  · rw [ctrAdd_t0, BitVec.ofNat_add, BitVec.ofNat_toNat, BitVec.setWidth_eq]
  · rw [ctrAdd_t1]
    simp only [ctrAdd_t0_lt_iff s hk]
  · have ht := s.t0.isLt
    have h128 := t0_aligned hc
    rw [ctrAdd_t1_ne_iff, ← BitVec.toNat_inj]
    show 2 ^ 64 ≤ s.t0.toNat + 128 ↔ s.t0.toNat = 0xffffffffffffff80
    omega

end Sys2Proof.Proofs
end

section
/-! ABSORB (spec/42_block_buffer_manager.md R183 to R189): where its bytes are stored, what it leaves unchanged, and what
it leaves behind, in closed form and however its data is cut. -/

namespace Sys2Proof.Proofs

open Sys2Proof.Machine Sys2Proof.Safety

/-! The cells the data is stored in. -/

/-- Data byte j + 1 before a PUSH_BYTE is data byte j after it: a full buffer is as an empty one, modulo 128 (R183). -/
theorem pushByte_cell (s : State) (b : Byte) (j : Nat) :
    ((pushByte s b).n.val + j) % 128 = (s.n.val + (j + 1)) % 128 := by
  rw [pushByte_n]
  split <;> omega

/-- A cell that no data byte is stored in keeps what it held. -/
theorem absorbBody_readByte_of_unreached {a : Fin 128} {data : List Byte} {s : State}
    (ha : ∀ j, j < data.length → (s.n.val + j) % 128 ≠ a.val) :
    readByte (absorbBody data s).buf a = readByte s.buf a := by
  induction data generalizing s with
  | nil => rfl
  | cons b data ih =>
    have hb : a.val ≠ s.n.val % 128 := (ha 0 (Nat.zero_lt_succ _)).symm
    have hrest : ∀ j, j < data.length → ((pushByte s b).n.val + j) % 128 ≠ a.val := by
      intro j hj
      rw [pushByte_cell]
      exact ha (j + 1) (Nat.succ_lt_succ hj)
    rw [absorbBody_cons, ih hrest, pushByte_readByte, if_neg hb]

/-- Each of the last 128 data bytes stays where it was stored: the ones after it are too few to come round to its cell. -/
theorem absorbBody_readByte_of_data {data : List Byte} {s : State} {j : Nat} (hj : j < data.length)
    (hlast : data.length ≤ j + 128) :
    data[j]? = some (readByte (absorbBody data s).buf (Fin.ofNat 128 (s.n.val + j))) := by
  induction data generalizing s j with
  | nil => cases hj
  | cons b data ih =>
    rw [List.length_cons] at hj hlast
    rw [absorbBody_cons]
    cases j with
    | zero =>
      have hcell : (Fin.ofNat 128 (s.n.val + 0)).val = s.n.val % 128 := rfl
      have hrest : ∀ i, i < data.length →
          ((pushByte s b).n.val + i) % 128 ≠ (Fin.ofNat 128 (s.n.val + 0)).val := by
        intro i hi
        rw [pushByte_cell, hcell]
        omega
      rw [absorbBody_readByte_of_unreached hrest, pushByte_readByte, if_pos hcell]
      rfl
    | succ j =>
      have hcell : Fin.ofNat 128 (s.n.val + (j + 1)) = Fin.ofNat 128 ((pushByte s b).n.val + j) :=
        Fin.ext (pushByte_cell s b j).symm
      rw [hcell, List.getElem?_cons_succ]
      exact ih (by omega) (by omega)

/-- Data that fits in the buffer beside what it holds leaves it uncompressed and uncounted (R48, R183). -/
theorem absorbBody_fits {data : List Byte} {s : State} (h : s.n.val + data.length ≤ 128) :
    (absorbBody data s).h = s.h ∧ (absorbBody data s).t0 = s.t0 ∧ (absorbBody data s).t1 = s.t1 := by
  have hlen : (bufPrefix s.buf s.n.val ++ data).length ≤ 128 := by
    rwa [List.length_append, bufPrefix_length]
  obtain ⟨hh, h0, h1, _, _⟩ := ((absorbed_buffer s).absorbBody data).uncompressed hlen
  exact ⟨hh, h0.trans (countLow_counter s), h1.trans (countHigh_counter s)⟩

/-! The command. -/

/-- Settles O20: in phase ACTIVE there is no byte to push; elsewhere the phase alone decides. -/
theorem emptyAbsorb : Obligations.EmptyAbsorb := by
  intro s len
  refine ⟨fun hp => exec_absorb_active hp len [], fun hp => ?_, fun hp => ?_⟩
  · simp only [exec, execAbsorb, hp, takeFault]
  · simp only [exec, execAbsorb, hp, takeFault]

/-- Settles O19: both runs push the same bytes in the same order. -/
theorem chunkingInvariance : Obligations.ChunkingInvariance := by
  intro s la lb lab a b hp
  refine ⟨absorbBody a s, absorbBody (a ++ b) s, exec_absorb_active hp la a, ?_, exec_absorb_active hp lab (a ++ b)⟩
  rw [absorbBody_append]
  exact exec_absorb_active ((absorbBody_phase a s).trans hp) lb b

/-- Settles O17: the buffered bytes and the data are one input, which the engine has absorbed since the counter's value. -/
theorem absorbClosedForm : Obligations.AbsorbClosedForm := by
  intro s len data hp
  obtain ⟨chain, low, high, held, rest⟩ := (absorbed_buffer s).absorbBody data
  have hlen : (bufPrefix s.buf s.n.val ++ data).length = s.n.val + data.length := by simp
  rw [hlen] at chain low high held rest
  rw [absorbBody_f0, absorbBody_f1] at chain
  refine ⟨absorbBody data s, exec_absorb_active hp len data, fun h0 => ?_, held, counter_of_count low high, chain, rest,
    absorbBody_f0 data s, absorbBody_f1 data s, absorbBody_outputLength data s, (absorbBody_phase data s).trans hp,
    absorbBody_cause data s, absorbBody_cs data s, absorbBody_ds data s⟩
  have hempty : data = [] := List.eq_nil_of_length_eq_zero (by omega)
  rw [hempty]
  rfl

/-- Outside phase ACTIVE an ABSORB does nothing, or takes a fault and no more (R184). -/
theorem exec_absorb_not_active_cases {s t : State} {len : Word} {data : List Byte} (hp : s.phase ≠ .active)
    (h : exec (.absorb len data) s = .next t) : t = s ∨ ∃ c, t = takeFault c s := by
  rcases execAbsorb_cases len data s with ⟨_, e⟩ | ⟨_, e⟩ | ⟨_, e⟩ | ⟨ha, _⟩
  · exact .inl (Host.Outcome.next.inj (h.symm.trans e))
  · exact .inr ⟨_, Host.Outcome.next.inj (h.symm.trans e)⟩
  · exact .inr ⟨_, Host.Outcome.next.inj (h.symm.trans e)⟩
  · exact absurd ha hp

/-- Settles O18: in phase ACTIVE by where the bytes are stored; elsewhere nothing but `phase` and `cause` is written. -/
theorem absorbFrame : Obligations.AbsorbFrame := by
  intro s t len data h
  by_cases hp : s.phase = .active
  · obtain rfl : absorbBody data s = t := Host.Outcome.next.inj ((exec_absorb_active hp len data).symm.trans h)
    exact ⟨fun a ha => absorbBody_readByte_of_unreached (ha hp), fun _ j => absorbBody_readByte_of_data,
      absorbBody_f0 data s, absorbBody_f1 data s, absorbBody_outputLength data s, absorbBody_cs data s,
      absorbBody_ds data s, fun _ => ⟨absorbBody_cause data s, absorbBody_phase data s⟩, absorbBody_fits⟩
  · rcases exec_absorb_not_active_cases hp h with rfl | ⟨c, rfl⟩
    · exact ⟨fun _ _ => rfl, fun ha => absurd ha hp, rfl, rfl, rfl, rfl, rfl, fun _ => ⟨rfl, rfl⟩,
        fun _ => ⟨rfl, rfl, rfl⟩⟩
    · exact ⟨fun _ _ => rfl, fun ha => absurd ha hp, rfl, rfl, rfl, rfl, rfl, fun hf => absurd rfl hf,
        fun _ => ⟨rfl, rfl, rfl⟩⟩

end Sys2Proof.Proofs
end

section
/-! FINISH (spec/43_finalizer.md R211 to R219): what it leaves behind, what it leaves unchanged, and the counter at the end
of a transaction. -/

namespace Sys2Proof.Proofs

open Sys2Proof.Machine Sys2Proof.Safety

/-! The command. -/

theorem exec_finish_active {rl : Byte} {s : State} (hp : s.phase = .active)
    (hl : rl.toNat = s.outputLength.toNat) : exec (.finish rl) s = .next (finishBody s) := by
  simp only [exec, execFinish, hp, hl, if_true]

/-- A FINISH consumes the instance, or does nothing, or takes a fault and no more (R213). -/
theorem exec_finish_cases {rl : Byte} {s t : State} (h : exec (.finish rl) s = .next t) :
    t = finishBody s ∨ t = s ∨ ∃ c, t = takeFault c s := by
  have h : execFinish rl s = .next t := h
  rcases execFinish_cases rl s with ⟨_, e⟩ | ⟨_, e⟩ | ⟨_, e⟩ | ⟨_, _, e⟩ | ⟨_, _, e⟩ <;> rw [e] at h <;> cases h
  · exact .inr (.inl rfl)
  · exact .inr (.inr ⟨_, rfl⟩)
  · exact .inr (.inr ⟨_, rfl⟩)
  · exact .inl rfl
  · exact .inr (.inr ⟨_, rfl⟩)

/-- FINISH counts the buffered bytes (R213). -/
theorem finishBody_counter (s : State) : counter (finishBody s) = (counter s + s.n.val) % 2 ^ 128 :=
  counter_ctrAdd s (by omega)

/-- FINISH keeps the buffered bytes and pads them with zeros (R211). -/
theorem readByte_finishBody (s : State) (a : Fin 128) :
    readByte (finishBody s).buf a = if a.val < s.n.val then readByte s.buf a else 0 := by
  have hn : 128 - (128 - s.n.val) = s.n.val := by omega
  rw [finishBody_buf, readByte_zeroCells _ (Nat.sub_le _ _), hn]

/-- Settles O22: the fields are those of `finishBody`; the padded buffer is the block F reads. -/
theorem finishEffect : Obligations.FinishEffect := by
  intro s rl hp hl
  refine ⟨finishBody s, exec_finish_active hp hl, finishBody_counter s, rfl, rfl, rfl, readByte_finishBody s, ?_, rfl,
    rfl, rfl, rfl, rfl⟩
  rw [finishBody_h, compressLast_h, wholeBlock_zeroCells _ _ (by omega), finishBody_t0, finishBody_t1]

/-- Settles O23: a FINISH that consumes the instance writes none of these, and one that does not takes a fault at most. -/
theorem finishFrame : Obligations.FinishFrame := by
  intro s t rl h
  rcases exec_finish_cases h with rfl | rfl | ⟨c, rfl⟩
  · exact ⟨fun a ha => (readByte_finishBody s a).trans (if_pos ha), rfl, rfl, rfl, fun _ => rfl,
      fun hne => absurd rfl hne⟩
  · exact ⟨fun _ _ => rfl, rfl, rfl, rfl, fun _ => rfl, fun _ => rfl⟩
  · exact ⟨fun _ _ => rfl, rfl, rfl, rfl, fun hne => absurd rfl hne, fun _ => rfl⟩

/-! The counter at the end of a transaction. -/

/-- Once FINISH has counted the buffered bytes, every byte of the input has been counted (R213). -/
theorem Absorbed.finishBody_counter {h : Vector Word 8} {done : Nat} {input : List Byte} {s : State}
    (hs : Absorbed h done input s) : counter (finishBody s) = (done + input.length) % 2 ^ 128 := by
  have hle := fullBlocks_le input.length
  rw [Proofs.finishBody_counter, counter_of_count hs.low hs.high, hs.held, Nat.mod_add_mod]
  congr 1
  omega

/-- The bytes appended to an instance: the key's block, if there is a key, and the message (R123, R219). -/
theorem keyedInput_length {key : List Byte} (hk : key.length ≤ 128) (message : List Byte) :
    (keyedInput key message).length = message.length + if key = [] then 0 else 128 := by
  rw [keyedInput, List.length_append, Nat.add_comm]
  split
  · rfl
  · rw [keyBlock_length key hk]

/-- A transaction runs to its end: FINISH finds a hash that has taken in the whole message, and completes it (R3). -/
theorem runCommands_transaction {s : State} {c : Instr} {nn : Byte} {key salt info : List Byte}
    (hp : s.phase ≠ .fault) (hn1 : 1 ≤ nn.toNat) (hn64 : nn.toNat ≤ 64) (hk : key.length ≤ 64)
    (hs : salt.length ≤ 16) (hi : info.length ≤ 16)
    (hc : ∀ u, exec c u = exec (initKdfOf nn key salt info) u) (chunks : List (List Byte)) :
    ∃ u, runCommands (c :: chunks.map absorbOf ++ [.finish nn]) s = .next (finishBody u) ∧
      Running nn key salt info chunks.flatten s u := by
  obtain ⟨t, hexec, hopen⟩ := exec_initKdfOf_running hp hn1 hn64 hk hs hi
  have hrun := hopen.absorbBody chunks.flatten
  refine ⟨absorbBody chunks.flatten t, ?_, hrun⟩
  rw [List.cons_append, runCommands_cons _ ((hc s).trans hexec), runCommands_absorbs _ _ hopen.phase,
    runCommands_finish hrun.phase hrun.length]

/-- Settles O41: whatever salt and info the command carries, FINISH counts the keyed input to its end. -/
theorem finalCounter : Obligations.FinalCounter := by
  intro s c nn key salt info chunks hp hn1 hn64 hk hs hi hc
  have hempty : ([] : List Byte).length ≤ 16 := Nat.zero_le _
  have hrun : ∃ salt' info' u, runCommands (c :: chunks.map absorbOf ++ [.finish nn]) s = .next (finishBody u) ∧
      Running nn key salt' info' chunks.flatten s u := by
    rcases hc with ⟨rfl, rfl⟩ | rfl | rfl
    · exact ⟨[], [], runCommands_transaction hp hn1 hn64 hk hempty hempty (fun _ => rfl) chunks⟩
    · exact ⟨[], [], runCommands_transaction hp hn1 hn64 hk hempty hempty (fun _ => rfl) chunks⟩
    · exact ⟨salt, info, runCommands_transaction hp hn1 hn64 hk hs hi (fun _ => rfl) chunks⟩
  obtain ⟨_, _, u, hexec, hu⟩ := hrun
  refine ⟨finishBody u, hexec, rfl, ?_⟩
  rw [hu.absorbed.finishBody_counter, Nat.zero_add, keyedInput_length (hk.trans (by decide))]

end Sys2Proof.Proofs
end

section
/-! The host commands of the sub-blocks (spec/43_finalizer.md R210, spec/40_parameter_block_builder.md R120,
spec/42_block_buffer_manager.md R180): whose command a step runs, by the byte at the frame start. -/

namespace Sys2Proof.Proofs

open Sys2Proof.Machine Sys2Proof.Laws

/-! The frame a step takes from CS. -/

theorem headerBytes_eq_cons (h : Header) : headerBytes h = opcodeOf h :: (headerBytes h).tail := by
  cases h <;> rfl

/-- A phase that does not await what the decoder awaits turns an ABSORB away (R89). -/
theorem payloadAwaited_cases (ph : Phase) (h : Header) :
    payloadAwaited ph h = headerInRange h ∨
      ∃ len, h = .absorb len ∧ ph ≠ .active ∧ payloadAwaited ph h = false := by
  by_cases hp : ph = .active
  · exact .inl (payloadAwaited_eq ph h (.inr hp))
  · cases h with
    | absorb len => exact .inr ⟨len, rfl, hp, beq_eq_false_iff_ne.2 hp⟩
    | init nn => exact .inl rfl
    | initMac nn kk => exact .inl rfl
    | initKdf nn kk sl il => exact .inl rfl
    | finish rl => exact .inl rfl

/-- What the engine takes from CS for a command: the command's frame, or, of an ABSORB that the phase turns away, the
header, with empty data (R89, log entry 17). -/
theorem frame_taken {s : State} {h : Header} {rest rest' : List Byte} {i : Instr}
    (hh : decodeHeader s.cs = .header h rest)
    (hd : decodePayload (payloadAwaited s.phase h) h rest = .instr i rest') :
    i.header = h ∧ (s.cs = encode i ++ rest' ∨
      ∃ len, i = .absorb len [] ∧ s.phase ≠ .active ∧ s.cs = headerBytes (.absorb len) ++ rest') := by
  have hcs := eq_headerBytes_of_decodeHeader hh
  rcases payloadAwaited_cases s.phase h with haw | ⟨len, rfl, hp, haw⟩ <;> rw [haw] at hd
  · obtain ⟨rfl, _, rfl⟩ := payload_of_decodePayload hd
    exact ⟨rfl, .inl (by rw [hcs, encode_eq, List.append_assoc])⟩
  · simp only [decodePayload, cond_false, splitPayload_zero, Decoded.instr.injEq] at hd
    obtain ⟨rfl, rfl⟩ := hd
    exact ⟨rfl, .inr ⟨len, rfl, hp, hcs⟩⟩

/-! What each opcode's command can do. -/

/-- The opcode byte tells the commands of the sub-blocks apart (R82, R120, R180, R210). -/
theorem opcodeOf_subBlock (i : Instr) :
    (opcodeOf i.header = 0x05#8 ∧ subBlockOf (.command i) = .finalizer ∧ ∃ rl, i = .finish rl) ∨
      (opcodeOf i.header = 0x04#8 ∧ subBlockOf (.command i) = .blockBufferManager ∧
        ∃ len data, i = .absorb len data) ∨
      ((opcodeOf i.header = 0x01#8 ∨ opcodeOf i.header = 0x02#8 ∨ opcodeOf i.header = 0x03#8) ∧
        subBlockOf (.command i) = .parameterBlockBuilder ∧ i.isConstruction = true) := by
  cases i with
  | init nn => exact .inr (.inr ⟨.inl rfl, rfl, rfl⟩)
  | initMac nn kk key => exact .inr (.inr ⟨.inr (.inl rfl), rfl, rfl⟩)
  | initKdf nn kk sl il key salt info => exact .inr (.inr ⟨.inr (.inr rfl), rfl, rfl⟩)
  | absorb len data => exact .inr (.inl ⟨rfl, rfl, len, data, rfl⟩)
  | finish rl => exact .inl ⟨rfl, rfl, rl, rfl⟩

theorem opcodeOf_construction {i : Instr} (hi : i.isConstruction = true) :
    opcodeOf i.header = 0x01#8 ∨ opcodeOf i.header = 0x02#8 ∨ opcodeOf i.header = 0x03#8 := by
  rcases opcodeOf_subBlock i with ⟨_, _, rl, rfl⟩ | ⟨_, _, len, data, rfl⟩ | ⟨hop, _, _⟩
  · cases hi
  · cases hi
  · exact hop

/-- Only a FINISH leaves phase CONSUMED, even of an instance already consumed (R264). -/
theorem exec_consumed {i : Instr} {s t : State} (h : exec i s = .next t) (ht : t.phase = .consumed) :
    ∃ rl, i = .finish rl := by
  rcases exec_cases i s with ⟨hp, e⟩ | ⟨_, _, _, _, e⟩ | ⟨_, _, _, _, _, _, _, _, _, _, _, e⟩ | ⟨_, _, _, hp, e⟩ |
    ⟨rl, hi, _⟩
  · rw [e] at h; cases h; rw [hp] at ht; cases ht
  · rw [e] at h; cases h; cases ht
  · rw [e] at h; cases h; rw [ite_absorbBody_keyBlock, absorbBody_phase] at ht; cases ht
  · rw [e] at h; cases h; rw [absorbBody_phase, hp] at ht; cases ht
  · exact ⟨rl, hi⟩

/-- A command other than FINISH emits nothing and consumes no instance (R57, R264). -/
theorem exec_of_not_finish {i : Instr} {s t : State} (hi : ∀ rl, i ≠ .finish rl) (h : exec i s = .next t) :
    t.ds = s.ds ∧ t.phase ≠ .consumed := by
  constructor
  · exact (exec_ds_cases h).resolve_right fun ⟨rl, e, _⟩ => hi rl e
  · intro ht
    obtain ⟨rl, e⟩ := exec_consumed h ht
    exact hi rl e

/-- The header decoder answers that an opcode is illegal for a byte that is none of the five alone (R90). -/
theorem range_of_decodeHeader_illegal {b op : Byte} {bs rest : List Byte}
    (h : decodeHeader (b :: bs) = .illegal op rest) : b.toNat < 1 ∨ 5 < b.toNat := by
  by_contra hb
  push Not at hb
  exact decodeHeader_ne_illegal b bs hb.1 hb.2 op rest h

/-- A whole frame always has a step: every command has a next state (R56, R265). -/
theorem step_next_of_frame {s : State} {i : Instr} {rest : List Byte} (hp : s.phase ≠ .fault)
    (hw : i.WellFormed = true) (hcs : s.cs = encode i ++ rest) : ∃ t, step s = .next t := by
  obtain ⟨u, hu⟩ := exec_next i s
  obtain ⟨c, hstep, _⟩ := step_runs_command hp hw hcs hu
  exact ⟨_, hstep⟩

/-- Settles O42: a step takes the illegal-opcode fault or runs the command of a frame, whose first byte is its opcode. -/
theorem hostCommandsOfTheSubBlocks : Obligations.HostCommandsOfTheSubBlocks := by
  intro s op bs hp hcs
  refine ⟨fun i rest => step_next_of_frame hp, fun t ht => ?_⟩
  rcases step_cases s with ⟨hf, _⟩ | ⟨_, e⟩ | ⟨op', bs', _, hill, e⟩ | ⟨h, rest, i, rest', _, hh, hd, e⟩
  · exact absurd hf hp
  · rw [e] at ht; cases ht
  · rw [e] at ht
    cases ht
    rw [hcs] at hill
    obtain ⟨-, rfl⟩ := List.cons.inj (decodeHeader_illegal_rest _ _ _ hill)
    exact ⟨.inl ⟨range_of_decodeHeader_illegal hill, rfl⟩, fun _ => ⟨rfl, nofun⟩, fun _ _ _ => ⟨rfl, rfl⟩⟩
  · rw [e] at ht
    obtain ⟨rfl, hframe⟩ := frame_taken hh hd
    have hop : op = opcodeOf i.header := by
      have hbytes := hcs.symm.trans (eq_headerBytes_of_decodeHeader hh)
      rw [headerBytes_eq_cons] at hbytes
      exact (List.cons.inj hbytes).1
    subst hop
    refine ⟨.inr ⟨i, rest', ht, hframe, opcodeOf_subBlock i⟩, fun h5 => ?_, fun h1 h2 h3 => ?_⟩
    · have hi : ∀ rl, i ≠ .finish rl := by
        rintro rl rfl
        exact h5 rfl
      obtain ⟨hds, hphase⟩ := exec_of_not_finish hi ht
      exact ⟨hds, hphase⟩
    · have hi : i.isConstruction ≠ true := by
        intro hc
        rcases opcodeOf_construction hc with hop | hop | hop <;> contradiction
      obtain ⟨hlen, hf1, _⟩ := (exec_instance_registers ht).resolve_left hi
      exact ⟨hlen, hf1⟩

end Sys2Proof.Proofs
end

section
/-! What a command and a step answer (spec/60_exceptions.md R246, R249, R253, R265): completed, or a fault of which nothing
but `phase` and `cause` is recorded; and what a step that waits has found on CS. -/

namespace Sys2Proof.Proofs

open Sys2Proof.Machine Sys2Proof.Safety

/-! The command. -/

/-- Outside phase FAULT a command completes, or it takes a fault, and then nothing else is written (R246, R253). -/
theorem exec_completes_or_faults {s : State} (hp : s.phase ≠ .fault) (i : Instr) :
    (∃ t, t.phase ≠ .fault ∧ exec i s = .next t) ∨
      ∃ c, c ≠ .noFault ∧ c ≠ .illegalOpcode ∧ exec i s = .next (takeFault c s) := by
  rcases exec_cases i s with ⟨hf, _⟩ | ⟨c, _, hc, hop, e⟩ | ⟨_, _, _, _, _, _, _, _, _, _, _, e⟩ | ⟨_, data, _, ha, e⟩ |
    ⟨_, _, _, _, e⟩
  · exact absurd hf hp
  · exact .inr ⟨c, hc, hop, e⟩
  · rw [ite_absorbBody_keyBlock] at e
    exact .inl ⟨_, by rw [absorbBody_phase, newInstance_phase]; decide, e⟩
  · exact .inl ⟨_, by rw [absorbBody_phase, ha]; decide, e⟩
  · exact .inl ⟨_, by rw [finishBody_phase]; decide, e⟩

/-- No command raises ILLEGAL_OPCODE (R247). -/
theorem exec_cause_ne_illegalOpcode {i : Instr} {s t : State} (hp : s.phase ≠ .fault)
    (hc : s.cause ≠ .illegalOpcode) (h : exec i s = .next t) : t.cause ≠ .illegalOpcode := by
  rcases exec_completes_or_faults hp i with ⟨u, hu, e⟩ | ⟨c, _, hop, e⟩ <;> rw [h] at e <;> cases e
  · rwa [(exec_cause_cases h).resolve_right hu]
  · exact hop

/-! The step. -/

/-- A byte at a frame start that spells no command raises ILLEGAL_OPCODE and is taken from CS (R90, R247). -/
theorem step_illegal_opcode {s : State} {b : Byte} {rest : List Byte} (hp : s.phase ≠ .fault)
    (hcs : s.cs = b :: rest) (hb : b.toNat < 1 ∨ 5 < b.toNat) :
    step s = .next (takeFault .illegalOpcode (setStream rest s)) := by
  simp only [step, fetch_parsing s hp, fetchFrame, hcs, decodeHeader_illegal b rest hb]

/-- Outside phase FAULT a step waits, completes a command, or takes a fault, and then nothing is written besides the fault
but CS (R253). -/
theorem step_waits_completes_or_faults {s : State} (hp : s.phase ≠ .fault) :
    step s = .fault (waitReason s.cs) ∨ (∃ t, t.phase ≠ .fault ∧ step s = .next t) ∨
      ∃ c rest, c ≠ .noFault ∧ step s = .next (takeFault c (setStream rest s)) := by
  rcases step_cases s with ⟨hf, _⟩ | ⟨_, e⟩ | ⟨_, rest, _, _, e⟩ | ⟨_, _, i, rest, _, _, _, e⟩
  · exact absurd hf hp
  · exact .inl e
  · exact .inr (.inr ⟨_, rest, by decide, e⟩)
  · rcases exec_completes_or_faults (s := setStream rest s) hp i with ⟨t, ht, h⟩ | ⟨c, hc, _, h⟩ <;>
      rw [← e] at h
    · exact .inr (.inl ⟨t, ht, h⟩)
    · exact .inr (.inr ⟨c, rest, hc, h⟩)

/-- Where a step waits, the decoder finds an incomplete frame: the data of an ABSORB that the phase turns away are not
awaited (R56, R89). -/
theorem decode_of_step_waits {s : State} {r : Fault} (hp : s.phase ≠ .fault) (h : step s = .fault r) :
    decode s.cs = .incomplete := by
  rw [step, fetch_parsing s hp, fetchFrame] at h
  cases hh : decodeHeader s.cs with
  | incomplete => simp only [decode, hh]
  | illegal op rest => simp only [hh, reduceCtorEq] at h
  | header hd rest =>
    cases hpay : decodePayload (payloadAwaited s.phase hd) hd rest with
    | illegal op rest' => exact absurd hpay (decodePayload_ne_illegal _ _ _ _ _)
    | instr i rest' =>
      obtain ⟨t, ht⟩ := exec_next i (setStream rest' s)
      simp only [hh, hpay, ht, reduceCtorEq] at h
    | incomplete =>
      rcases payloadAwaited_cases s.phase hd with haw | ⟨len, rfl, _, haw⟩ <;> rw [haw] at hpay
      · simp only [decode, hh, hpay]
      · simp only [decodePayload, cond_false, splitPayload_zero, reduceCtorEq] at hpay

/-- In phase FAULT any positive number of steps discards CS and does nothing else (R249). -/
theorem run_fault (k : Nat) {s : State} (hp : s.phase = .fault) :
    Host.Core.run Sys2Proof.core (k + 1) s = .next (setStream [] s) := by
  induction k generalizing s with
  | zero => rw [run_succ_next 0 s _ (step_fault s hp)]; rfl
  | succ k ih => rw [run_succ_next (k + 1) s _ (step_fault s hp), ih (s := setStream [] s) hp]; rfl

end Sys2Proof.Proofs
end

section
/-! What an incomplete frame lacks: bytes that decode to no command yet begin the frame of one (spec/20_memory.md R56,
spec/30_encoding.md R82, R89). -/

namespace Sys2Proof.Proofs

open Sys2Proof.Machine

/-- Nine bytes hold every header (R82). -/
theorem decodeHeader_ne_incomplete {bs : List Byte} (h : 9 ≤ bs.length) : decodeHeader bs ≠ .incomplete := by
  match bs, h with
  | op :: b1 :: b2 :: b3 :: b4 :: b5 :: b6 :: b7 :: b8 :: rest, _ =>
    simp only [decodeHeader]
    split_ifs <;> nofun

/-- Bytes that do not hold a whole header begin one (R56, R89). -/
theorem headerBytes_of_decodeHeader_incomplete {bs : List Byte} (hd : decodeHeader bs = .incomplete) :
    ∃ h more, more ≠ [] ∧ bs ++ more = headerBytes h := by
  cases bs with
  | nil => exact ⟨.init 0, headerBytes (.init 0), nofun, rfl⟩
  | cons op bs =>
    have hop : 1 ≤ op.toNat ∧ op.toNat ≤ 5 := by
      by_contra hb
      rw [decodeHeader_illegal op bs (by omega)] at hd
      cases hd
    cases hh : decodeHeader (op :: (bs ++ zeros 9)) with
    | incomplete => exact absurd hh (decodeHeader_ne_incomplete (by simp [zeros]))
    | illegal op' rest => exact absurd hh (decodeHeader_ne_illegal op _ hop.1 hop.2 op' rest)
    | header h rest =>
      have hnot : ∀ rest', op :: bs ≠ headerBytes h ++ rest' := by
        intro rest' e
        rw [e, decodeHeader_headerBytes] at hd
        cases hd
      have hbytes : op :: bs ++ zeros 9 = headerBytes h ++ rest := eq_headerBytes_of_decodeHeader hh
      rcases List.append_eq_append_iff.1 hbytes with ⟨more, e, _⟩ | ⟨rest', e, _⟩
      · refine ⟨h, more, ?_, e.symm⟩
        rintro rfl
        exact hnot [] (by rw [e, List.append_nil, List.append_nil])
      · exact absurd e (hnot rest')

/-- A payload that has not arrived is shorter than its header announces (R56). -/
theorem length_of_decodePayload_incomplete {aw : Bool} {h : Header} {bs : List Byte}
    (hd : decodePayload aw h bs = .incomplete) : bs.length < bif aw then payloadLength h else 0 := by
  cases h with
  | init nn => cases hd
  | finish rl => cases hd
  | initMac nn kk =>
    simp only [decodePayload] at hd
    split at hd
    next hs => exact (splitPayload_none _ _).1 hs
    · cases hd
  | absorb len =>
    simp only [decodePayload] at hd
    split at hd
    next hs => exact (splitPayload_none _ _).1 hs
    · cases hd
  | initKdf nn kk sl il =>
    simp only [decodePayload] at hd
    cases aw <;> simp only [cond_true, cond_false, splitPayload_zero, reduceCtorEq, payloadLength] at hd ⊢
    split at hd
    next hkey => have := (splitPayload_none _ _).1 hkey; omega
    next hkey =>
      split at hd
      next hsalt =>
        have := splitPayload_length hkey
        have := (splitPayload_none _ _).1 hsalt
        omega
      next hsalt =>
        split at hd
        next hinfo =>
          have := splitPayload_length hkey
          have := splitPayload_length hsalt
          have := (splitPayload_none _ _).1 hinfo
          omega
        · cases hd

/-- A header and no more payload bytes than it announces begin the frame of a well-formed command, which zero bytes
complete (R82, R89). -/
theorem encode_of_headerBytes (h : Header) {bs : List Byte} {k : Nat}
    (hk : bs.length + k = bif headerInRange h then payloadLength h else 0) :
    ∃ i, i.WellFormed = true ∧ headerBytes h ++ (bs ++ zeros k) = encode i := by
  have hlen : (bs ++ zeros k).length = bif headerInRange h then payloadLength h else 0 := by
    rw [List.length_append, ← hk, zeros, List.length_replicate]
  cases hd : decodePayload (headerInRange h) h (bs ++ zeros k) with
  | incomplete => have := length_of_decodePayload_incomplete hd; omega
  | illegal op rest => exact absurd hd (decodePayload_ne_illegal _ _ _ _ _)
  | instr i rest =>
    obtain rfl : rest = [] := List.eq_nil_of_length_eq_zero (by have := decodePayload_length hd; omega)
    obtain ⟨rfl, hw, e⟩ := payload_of_decodePayload hd
    exact ⟨i, hw, by rw [e, List.append_nil, encode_eq]⟩

/-- Bytes that decode to an incomplete frame are the beginning of a well-formed command's frame, and not the whole of it
(R56). -/
theorem encode_of_decode_incomplete {bs : List Byte} (hd : decode bs = .incomplete) :
    ∃ (i : Instr) (more : List Byte), i.WellFormed = true ∧ more ≠ [] ∧ bs ++ more = encode i := by
  cases hh : decodeHeader bs with
  | illegal op rest => simp only [decode, hh, reduceCtorEq] at hd
  | incomplete =>
    obtain ⟨h, more, hmore, e⟩ := headerBytes_of_decodeHeader_incomplete hh
    obtain ⟨i, hw, hi⟩ := encode_of_headerBytes h (bs := []) (Nat.zero_add _)
    exact ⟨i, _, hw, List.append_ne_nil_of_left_ne_nil hmore _, by rw [← hi, ← e, List.append_assoc]⟩
  | header h payload =>
    obtain rfl := eq_headerBytes_of_decodeHeader hh
    rw [decode_headerBytes] at hd
    have hlt := length_of_decodePayload_incomplete hd
    obtain ⟨i, hw, hi⟩ := encode_of_headerBytes h (Nat.add_sub_of_le hlt.le)
    refine ⟨i, _, hw, fun e => ?_, by rw [← hi, List.append_assoc]⟩
    have := congrArg List.length e
    rw [zeros, List.length_replicate, List.length_nil] at this
    omega

end Sys2Proof.Proofs
end

section
/-! The faults (spec/60_exceptions.md R242 to R253): when each is raised, and what it leaves. -/

namespace Sys2Proof.Proofs

open Sys2Proof.Machine

/-- Settles O10: a command is ignored, bytes sent are not kept, and each step discards what is on CS. -/
theorem faultIsSticky : Obligations.FaultIsSticky := by
  intro s hp
  refine ⟨exec_fault hp, fun bs => by simp only [hostSend, hp], fun k hk => ?_⟩
  obtain ⟨k, rfl⟩ := Nat.exists_eq_succ_of_ne_zero hk.ne'
  exact run_fault k hp

/-! PARAM_RANGE. -/

/-- The range guard failed, as R242 writes it. -/
theorem paramsInRange_false_iff (nn kk sl il : Byte) :
    paramsInRange nn kk sl il = false ↔
      nn.toNat < 1 ∨ 64 < nn.toNat ∨ 64 < kk.toNat ∨ 16 < sl.toNat ∨ 16 < il.toNat := by
  rw [← Bool.not_eq_true, paramsInRange_iff]
  omega

/-- Outside phase FAULT, CONSTRUCT faults exactly when an operand is out of range (R124, R242). -/
theorem construct_paramRange_iff {s : State} (hp : s.phase ≠ .fault) (nn kk sl il : Byte)
    (key salt info : List Byte) :
    (Host.Outcome.next (construct nn kk sl il key salt info s) : Host.Outcome State Fault Refusal) =
        .next (takeFault .paramRange s) ↔
      nn.toNat < 1 ∨ 64 < nn.toNat ∨ 64 < kk.toNat ∨ 16 < sl.toNat ∨ 16 < il.toNat := by
  rw [← paramsInRange_false_iff, Host.Outcome.next.injEq]
  refine ⟨fun h => ?_, construct_rejected _ _ _ _ _ _ _ _ hp⟩
  by_contra hr
  have hact := construct_phase nn kk sl il key salt info s hp (Bool.eq_true_of_not_eq_false hr)
  rw [h] at hact
  cases hact

/-- Settles O14: the three commands are CONSTRUCT of their operands, and an absent operand is 0, which is in range. -/
theorem paramRangeFaults : Obligations.ParamRangeFaults := by
  intro s nn kk sl il key salt info hp
  refine ⟨(construct_paramRange_iff hp nn 0 0 0 [] [] []).trans ?_,
    (construct_paramRange_iff hp nn kk 0 0 key [] []).trans ?_,
    construct_paramRange_iff hp nn kk sl il key salt info⟩ <;> simp

/-! OUTLEN_MISMATCH, USE_AFTER_FINISH, NO_INSTANCE. -/

theorem exec_finish_mismatch {rl : Byte} {s : State} (hp : s.phase = .active)
    (hl : rl.toNat ≠ s.outputLength.toNat) : exec (.finish rl) s = .next (takeFault .outlenMismatch s) := by
  simp only [exec, execFinish, hp, hl, if_false]

theorem exec_finish_consumed {s : State} (hp : s.phase = .consumed) (rl : Byte) :
    exec (.finish rl) s = .next (takeFault .useAfterFinish s) := by
  simp only [exec, execFinish, hp]

theorem exec_absorb_consumed {s : State} (hp : s.phase = .consumed) (len : Word) (data : List Byte) :
    exec (.absorb len data) s = .next (takeFault .useAfterFinish s) := by
  simp only [exec, execAbsorb, hp]

theorem exec_finish_idle {s : State} (hp : s.phase = .idle) (rl : Byte) :
    exec (.finish rl) s = .next (takeFault .noInstance s) := by
  simp only [exec, execFinish, hp]

theorem exec_absorb_idle {s : State} (hp : s.phase = .idle) (len : Word) (data : List Byte) :
    exec (.absorb len data) s = .next (takeFault .noInstance s) := by
  simp only [exec, execAbsorb, hp]

/-- Settles O25, command by command and phase by phase. -/
theorem misuseFaults : Obligations.MisuseFaults :=
  fun _ rl len data => ⟨exec_finish_mismatch,
    fun hp => ⟨exec_finish_consumed hp rl, exec_absorb_consumed hp len data⟩,
    fun hp => ⟨exec_finish_idle hp rl, exec_absorb_idle hp len data⟩⟩

/-! ILLEGAL_OPCODE. -/

/-- Settles O7: another byte begins the frame of a command, and no command raises this cause. -/
theorem illegalOpcodeFaults : Obligations.IllegalOpcodeFaults := by
  intro s b rest hp hcs
  refine ⟨step_illegal_opcode hp hcs, fun h1 h5 hc t ht => ?_⟩
  rcases step_cases s with ⟨hf, _⟩ | ⟨_, e⟩ | ⟨op, rest', _, hd, _⟩ | ⟨_, _, i, rest', _, _, _, e⟩
  · exact absurd hf hp
  · rw [e] at ht; cases ht
  · rw [hcs] at hd
    exact absurd hd (decodeHeader_ne_illegal b rest h1 h5 op rest')
  · exact exec_cause_ne_illegalOpcode (s := setStream rest' s) hp hc (e.symm.trans ht)

/-! Every fault. -/

/-- Settles O27: what completes is not in phase FAULT, and what faults has written the fault alone. -/
theorem faultsArePrecise : Obligations.FaultsArePrecise := by
  constructor
  · intro i s t hp h ht
    rcases exec_completes_or_faults hp i with ⟨u, hu, e⟩ | ⟨c, hc, _, e⟩ <;> rw [h] at e <;> cases e
    · exact absurd ht hu
    · exact ⟨rfl, hc⟩
  · intro s t hp h ht
    rcases step_waits_completes_or_faults hp with e | ⟨u, hu, e⟩ | ⟨c, rest, hc, e⟩ <;> rw [h] at e <;> cases e
    · exact absurd ht hu
    · exact ⟨rfl, hc⟩

end Sys2Proof.Proofs
end

section
/-! The transition table of `phase` (spec/60_exceptions.md R264) and the classes of outcomes (R265). -/

namespace Sys2Proof.Proofs

open Sys2Proof.Machine Sys2Proof.Safety

/-! The table. -/

/-- The cell of a construction command in every phase but FAULT, `inRange` being R242's conditions on its operands. -/
theorem construct_transition {s : State} (hp : s.phase ≠ .fault) {nn kk sl il : Byte} (key salt info : List Byte)
    {inRange : Prop} [Decidable inRange] (hr : paramsInRange nn kk sl il = true ↔ inRange) :
    ((construct nn kk sl il key salt info s).phase, (construct nn kk sl il key salt info s).cause) =
      if inRange then (.active, s.cause) else (.fault, .paramRange) := by
  by_cases h : inRange
  · rw [construct_accepted _ _ _ _ _ _ _ s hp (hr.2 h), ite_absorbBody_keyBlock, if_pos h, absorbBody_phase,
      absorbBody_cause]
    rfl
  · rw [construct_rejected _ _ _ _ _ _ _ s hp (Bool.eq_false_of_not_eq_true fun ht => h (hr.1 ht)), if_neg h]
    rfl

/-- The bytes a command emits: the digest, in the one cell that goes from ACTIVE to CONSUMED (R57, R264). -/
theorem exec_emits {i : Instr} {s t : State} (h : exec i s = .next t) :
    t.ds = s.ds ++ if s.phase = .active ∧ t.phase = .consumed then serialize t.h s.outputLength.toNat else [] := by
  by_cases hc : s.phase = .active ∧ t.phase = .consumed
  · obtain ⟨hp, ht⟩ := hc
    obtain ⟨rl, rfl⟩ := exec_consumed h ht
    rw [if_pos ⟨hp, ht⟩]
    rcases exec_finish_cases h with rfl | rfl | ⟨c, rfl⟩
    · rfl
    · rw [hp] at ht; cases ht
    · cases ht
  · rw [if_neg hc, List.append_nil]
    rcases exec_ds_cases h with hds | ⟨_, _, hp, _, rfl⟩
    · exact hds
    · exact absurd ⟨hp, rfl⟩ hc

/-- Settles O26: the rows of the construction commands by `construct_transition`, those of ABSORB and FINISH phase by
phase; then the columns. -/
theorem phaseTransitionTable : Obligations.PhaseTransitionTable := by
  refine ⟨fun s i => ?_, fun s t i h => ⟨fun hp => ?_, exec_emits h⟩, fun s b rest hcs hb => ?_, fun _ => ⟨rfl, rfl⟩⟩
  · by_cases hf : s.phase = .fault
    · exact ⟨s, exec_fault hf i, by simp only [hf]⟩
    · cases i with
      | init nn =>
        cases hp : s.phase with
        | fault => exact absurd hp hf
        | _ => exact ⟨_, rfl, construct_transition hf [] [] [] (by simp [paramsInRange_iff])⟩
      | initMac nn kk key =>
        cases hp : s.phase with
        | fault => exact absurd hp hf
        | _ => exact ⟨_, rfl, construct_transition hf key [] [] (by simp [paramsInRange_iff, and_assoc])⟩
      | initKdf nn kk sl il key salt info =>
        cases hp : s.phase with
        | fault => exact absurd hp hf
        | _ => exact ⟨_, rfl, construct_transition hf key salt info (by rw [paramsInRange_iff, and_assoc])⟩
      | absorb len data =>
        cases hp : s.phase with
        | fault => exact absurd hp hf
        | idle => exact ⟨_, exec_absorb_idle hp len data, rfl⟩
        | consumed => exact ⟨_, exec_absorb_consumed hp len data, rfl⟩
        | active =>
          exact ⟨_, exec_absorb_active hp len data, by rw [absorbBody_phase, absorbBody_cause, hp]⟩
      | finish rl =>
        cases hp : s.phase with
        | fault => exact absurd hp hf
        | idle => exact ⟨_, exec_finish_idle hp rl, rfl⟩
        | consumed => exact ⟨_, exec_finish_consumed hp rl, rfl⟩
        | active =>
          by_cases hl : rl.toNat = s.outputLength.toNat
          · exact ⟨_, exec_finish_active hp hl, (if_pos hl).symm⟩
          · exact ⟨_, exec_finish_mismatch hp hl, (if_neg hl).symm⟩
  · exact (Host.Outcome.next.inj ((exec_fault hp i).symm.trans h)).symm
  · by_cases hf : s.phase = .fault
    · exact ⟨_, step_fault s hf, by rw [if_pos hf, setStream_phase, setStream_cause, hf]⟩
    · exact ⟨_, step_illegal_opcode hf hcs hb, (if_neg hf).symm⟩

/-! The classes. -/

/-- The class of a step outside phase FAULT, by what is on CS (R56, R265, R298). -/
theorem classify_step_cases {s : State} (hp : s.phase ≠ .fault) :
    (s.cs = [] ∧ classify s (step s) = .ended) ∨
      (s.cs ≠ [] ∧ decode s.cs = .incomplete ∧ classify s (step s) = .stuck) ∨
      (s.cs ≠ [] ∧ ((∃ t, classify s (step s) = .next t) ∨ ∃ c, classify s (step s) = .fault c)) := by
  by_cases hcs : s.cs = []
  · exact .inl ⟨hcs, by rw [step_empty s hp hcs, classify_sequenceExhausted]⟩
  · rcases step_waits_completes_or_faults hp with e | ⟨t, ht, e⟩ | ⟨c, rest, _, e⟩
    · have hd := decode_of_step_waits hp e
      rw [waitReason_eq, if_neg hcs] at e
      exact .inr (.inl ⟨hcs, hd, by rw [e, classify_incompleteFrame]⟩)
    · exact .inr (.inr ⟨hcs, .inl ⟨t, by rw [e, classify_next s t hp, if_neg ht]⟩⟩)
    · exact .inr (.inr ⟨hcs, .inr ⟨c, by rw [e, classify_next s _ hp]; rfl⟩⟩)

/-- Settles O43: a command by its two answers, a step by its class, an incomplete frame by the bytes it lacks. -/
theorem outcomesAreClassified : Obligations.OutcomesAreClassified := by
  refine ⟨fun i s => ⟨fun hp => ?_, fun hp => ?_⟩, fun s => ?_⟩
  · have e := exec_fault hp i
    exact ⟨by rw [e, classify_ignored s s hp], e⟩
  · rcases exec_completes_or_faults hp i with ⟨t, ht, e⟩ | ⟨c, hc, _, e⟩
    · exact .inl ⟨t, ht, by rw [e, classify_next s t hp, if_neg ht], e⟩
    · exact .inr ⟨c, hc, by rw [e, classify_next s _ hp]; rfl, e⟩
  · by_cases hp : s.phase = .fault
    · have e : classify s (step s) = .ignored := by rw [step_fault s hp, classify_ignored s _ hp]
      simp [e, hp]
    · rcases classify_step_cases hp with ⟨hcs, e⟩ | ⟨hcs, hd, e⟩ | ⟨hcs, ⟨t, e⟩ | ⟨c, e⟩⟩
      · simp [e, hp, hcs]
      · simpa [e, hp, hcs, hd] using encode_of_decode_incomplete hd
      · simp [e, hp, hcs]
      · simp [e, hp, hcs]

end Sys2Proof.Proofs
end

section
/-! Where a run comes to rest (spec/70_reset_and_hazards.md R298, spec/20_memory.md R56). -/

namespace Sys2Proof.Proofs

open Sys2Proof.Machine Sys2Proof.Safety

/-- The reason of a step that waits tells a frame begun from a stream exhausted (R56, R298; log entry 5). -/
theorem ended_or_stuck_of_step_waits {s : State} (h : step s = .fault (waitReason s.cs)) : Ended s ∨ Stuck s := by
  by_cases hcs : s.cs = []
  · exact .inl hcs
  · rw [waitReason_eq, if_neg hcs] at h
    exact .inr h

/-- As many steps as bytes wait on CS are enough: each step takes one at least, or in phase FAULT discards them all. -/
theorem drain_ended_or_stuck {k : Nat} {s : State} (hk : s.cs.length ≤ k) : Ended (drain k s) ∨ Stuck (drain k s) := by
  induction k generalizing s with
  | zero => exact .inl (List.length_eq_zero_iff.1 (Nat.le_zero.1 hk))
  | succ k ih =>
    by_cases hp : s.phase = .fault
    · rw [drain_fault k s hp]
      exact .inl rfl
    · have hnext {t : State} (e : step s = .next t) : Ended (drain (k + 1) s) ∨ Stuck (drain (k + 1) s) := by
        rw [drain_succ_next k s t e]
        exact ih (Nat.le_of_lt_succ (Nat.lt_of_lt_of_le (step_shortens s t hp e) hk))
      rcases step_waits_completes_or_faults hp with e | ⟨t, _, e⟩ | ⟨c, rest, _, e⟩
      · rw [drain_succ_fault k s _ e]
        exact ended_or_stuck_of_step_waits e
      · exact hnext e
      · exact hnext e

/-- With CS empty a step in phase FAULT has a next state, and elsewhere the reason is not an incomplete frame. -/
theorem not_stuck_of_ended {s : State} (h : Ended s) : ¬ Stuck s := by
  intro hs
  by_cases hp : s.phase = .fault
  · cases (step_fault s hp).symm.trans hs
  · cases (step_empty s hp h).symm.trans hs

/-- Settles O44: the run ends or is stuck by `drain_ended_or_stuck`; the rest by what a step does with CS empty. -/
theorem everyRunEndsOrIsStuck : Obligations.EveryRunEndsOrIsStuck := fun s =>
  ⟨drain_ended_or_stuck (Nat.le_refl s.cs.length), fun ⟨he, hs⟩ => not_stuck_of_ended he hs,
    fun he hp => step_empty (runToRest s) hp he⟩

end Sys2Proof.Proofs
end

section
/-! Reset (spec/70_reset_and_hazards.md R280, R281) and the invariant of every state a run reaches
(spec/10_state.md R25, R29, R38 to R42, R49): it holds after reset, and every step keeps it. -/

namespace Sys2Proof.Proofs

open Sys2Proof.Machine Sys2Proof.Safety

theorem status_reset : status State.reset = 0x00#8 := by decide

/-- Settles O1: every field the statement names is a literal of the reset state. -/
theorem resetLeavesTheIdleEngine : Obligations.ResetLeavesTheIdleEngine :=
  fun _ => ⟨rfl, rfl, status_reset, rfl, rfl, rfl⟩

/-! States without an instance: the invariant speaks of the buffer's form and of `cause` alone. -/

theorem inv_of_not_hasInstance {s : State} (hs : ¬ hasInstance s) (hw : s.buf.wf = true)
    (hc : s.cause ≠ .noFault ↔ s.phase = .fault) : Inv s where
  bufWf := hw
  causeIffFault := hc
  prefixWritten := fun h => absurd h hs
  lastBlockFlag := ⟨fun h => absurd (.inl h) hs, fun h => absurd (.inr h) hs⟩
  treeFlag := fun h => absurd h hs
  outputLengthRange := fun h => absurd h hs
  counterAligned := fun h => absurd (.inl h) hs
  consumedFull := fun h => absurd (.inr h) hs

/-- Settles O2: after reset there is no instance, no cell written and no fault. -/
theorem resetMeetsTheInvariant : Obligations.ResetMeetsTheInvariant :=
  inv_of_not_hasInstance nofun State.reset_buf_wf ⟨fun h => absurd rfl h, nofun⟩

theorem inv_takeFault {s : State} (h : Inv s) {c : Cause} (hc : c ≠ .noFault) : Inv (takeFault c s) :=
  inv_of_not_hasInstance nofun h.bufWf ⟨fun _ => rfl, fun _ => hc⟩

/-! States with an instance. -/

theorem inv_setStream {s : State} (h : Inv s) (cs : List Byte) : Inv (setStream cs s) :=
  ⟨h.bufWf, h.causeIffFault, h.prefixWritten, h.lastBlockFlag, h.treeFlag, h.outputLengthRange, h.counterAligned,
    h.consumedFull⟩

/-- The cell PUSH_BYTE adds to the buffer is the one it writes (R25, R183). -/
theorem pushByte_prefixWritten {s : State} (h : ∀ a, a < s.n.val → (lookupCell s.buf a).isSome = true) (b : Byte)
    {a : Nat} (ha : a < (pushByte s b).n.val) : (lookupCell (pushByte s b).buf a).isSome = true := by
  rw [pushByte_n] at ha
  rcases pushByte_cases s b with ⟨hn, e⟩ | ⟨hn, e⟩ <;> rw [e, appendByte_buf] <;>
    refine lookupCell_writeByte_isSome _ _ _ _ ?_
  · have hcell : (Fin.ofNat 128 s.n.val).val = s.n.val := Nat.mod_eq_of_lt hn
    rw [if_neg (by omega)] at ha
    rw [hcell]
    exact (Nat.lt_succ_iff_lt_or_eq.1 ha).symm.imp_right (h a)
  · rw [if_pos hn] at ha
    exact .inl (Nat.lt_one_iff.1 ha)

theorem inv_pushByte {s : State} (h : Inv s) (hp : s.phase = .active) (b : Byte) : Inv (pushByte s b) where
  bufWf := pushByte_buf_wf s b h.bufWf
  causeIffFault := by rw [pushByte_cause, pushByte_phase]; exact h.causeIffFault
  prefixWritten := fun _ _ => pushByte_prefixWritten (h.prefixWritten (.inl hp)) b
  lastBlockFlag := by rw [pushByte_f0, pushByte_phase]; exact h.lastBlockFlag
  treeFlag := fun _ => (pushByte_f1 s b).trans (h.treeFlag (.inl hp))
  outputLengthRange := fun _ => by rw [pushByte_outputLength]; exact h.outputLengthRange (.inl hp)
  counterAligned := fun _ => pushByte_counter_aligned (h.counterAligned hp) b
  consumedFull := by rw [pushByte_phase, hp]; nofun

theorem inv_absorbBody {s : State} (h : Inv s) (hp : s.phase = .active) (data : List Byte) :
    Inv (absorbBody data s) := by
  induction data generalizing s with
  | nil => exact h
  | cons b data ih => exact ih (inv_pushByte h hp b) ((pushByte_phase s b).trans hp)

theorem inv_newInstance {s : State} (h : Inv s) (hp : s.phase ≠ .fault) {nn kk sl il : Byte}
    (hr : paramsInRange nn kk sl il = true) (salt info : List Byte) : Inv (newInstance nn kk salt info s) where
  bufWf := h.bufWf
  causeIffFault := ⟨fun hc => absurd (h.causeIffFault.1 hc) hp, nofun⟩
  prefixWritten := fun _ _ ha => absurd ha (Nat.not_lt_zero _)
  lastBlockFlag := ⟨fun _ => rfl, nofun⟩
  treeFlag := fun _ => rfl
  outputLengthRange := fun _ => by
    obtain ⟨hnn, _⟩ := (paramsInRange_iff nn kk sl il).1 hr
    rw [newInstance_outputLength, BitVec.toNat_setWidth, Nat.mod_eq_of_lt (by omega)]
    exact hnn
  counterAligned := fun _ => Nat.dvd_zero 128
  consumedFull := nofun

/-- FINISH fills the buffer with zero bytes it writes (R25, R49, R211). -/
theorem inv_finishBody {s : State} (h : Inv s) (hp : s.phase = .active) : Inv (finishBody s) where
  bufWf := finishBody_buf_wf s h.bufWf
  causeIffFault := ⟨fun hc => absurd (hp.symm.trans (h.causeIffFault.1 hc)) nofun, nofun⟩
  prefixWritten := fun _ a ha => by
    rw [finishBody_buf]
    refine lookupCell_zeroCells_isSome _ _ a ?_
    by_cases hn : a < s.n.val
    · exact .inr (h.prefixWritten (.inl hp) a hn)
    · have ha : a < 128 := ha
      exact .inl ⟨by omega, ha⟩
  lastBlockFlag := ⟨nofun, fun _ => rfl⟩
  treeFlag := fun _ => h.treeFlag (.inl hp)
  outputLengthRange := fun _ => h.outputLengthRange (.inl hp)
  counterAligned := nofun
  consumedFull := fun _ => rfl

/-! The command and the step. -/

theorem exec_inv {i : Instr} {s t : State} (h : Inv s) (he : exec i s = .next t) : Inv t := by
  rcases exec_cases i s with ⟨_, e⟩ | ⟨c, _, hc, _, e⟩ | ⟨nn, kk, sl, il, key, salt, info, _, hp, hr, _, e⟩ |
    ⟨_, data, _, hp, e⟩ | ⟨_, _, hp, _, e⟩ <;> rw [e] at he <;> cases he
  · exact h
  · exact inv_takeFault h hc
  · rw [ite_absorbBody_keyBlock]
    exact inv_absorbBody (inv_newInstance h hp hr salt info) rfl _
  · exact inv_absorbBody h hp data
  · exact inv_finishBody h hp

/-- Settles O36: taking bytes from CS keeps the invariant, and so does whatever a command can do. -/
theorem stepKeepsTheInvariant : Obligations.StepKeepsTheInvariant := by
  intro s t h hstep
  rcases step_cases s with ⟨_, e⟩ | ⟨_, e⟩ | ⟨_, rest, _, _, e⟩ | ⟨_, _, i, rest, _, _, _, e⟩ <;> rw [e] at hstep
  · cases hstep; exact inv_setStream h []
  · cases hstep
  · cases hstep; exact inv_takeFault (inv_setStream h rest) nofun
  · exact exec_inv (inv_setStream h rest) hstep

end Sys2Proof.Proofs
end

section
/-! The step and the frames on CS (spec/20_memory.md R55, R56, spec/30_encoding.md R80 to R91): what a whole frame runs,
what a cut one does, and what a stream of frames comes to. -/

namespace Sys2Proof.Proofs

open Sys2Proof.Machine Sys2Proof.Safety

/-- As many steps as commands, on the frames of well-formed commands with more bytes `rest` after them, come to the state
the commands leave, with `rest` on CS unless they have faulted. -/
theorem run_frames {is : List Instr} (hw : ∀ i ∈ is, i.WellFormed = true) {rest : List Byte} {s u : State}
    (hrun : runCommands is s = .next u) {c : List Byte} (hc : s.phase ≠ .fault → c = is.flatMap encode ++ rest) :
    ∃ c', Host.Core.run Sys2Proof.core is.length (setStream c s) = .next (setStream c' u) ∧
      (u.phase ≠ .fault → c' = rest) := by
  induction is generalizing s c with
  | nil => cases hrun; exact ⟨c, rfl, hc⟩
  | cons i is ih =>
    by_cases hp : s.phase = .fault
    · rw [runCommands_fault hp] at hrun
      cases hrun
      exact ⟨[], run_fault is.length (s := setStream c u) hp, fun h => absurd hp h⟩
    · obtain ⟨t, hexec⟩ := exec_next i s
      rw [runCommands_cons is hexec] at hrun
      have hcs : (setStream c s).cs = encode i ++ (is.flatMap encode ++ rest) := by
        rw [setStream_cs, hc hp, List.flatMap_cons, List.append_assoc]
      obtain ⟨c', hstep, hc'⟩ := step_runs_command (s := setStream c s) hp (hw i List.mem_cons_self) hcs
        (exec_setStream i s t c hexec)
      rw [List.length_cons, run_succ_next is.length _ _ hstep]
      exact ih (fun j hj => hw j (List.mem_cons_of_mem i hj)) hrun hc'

/-- Settles O9: the run differs from the commands by what is left on CS alone. -/
theorem streamOfFramesRunsAsCommands : Obligations.StreamOfFramesRunsAsCommands := by
  intro is rest s hw hcs
  obtain ⟨u, hrun⟩ := runCommands_next is s
  obtain ⟨c, hsteps, hc⟩ := run_frames hw hrun (fun _ => hcs)
  exact ⟨setStream c u, u, hsteps, hrun, rfl, hc⟩

/-- Settles O8: a cut frame has no step, and it is empty exactly where none of its bytes has arrived. -/
theorem incompleteFrameHasNoStep : Obligations.IncompleteFrameHasNoStep := by
  intro s i k hp hw hk hcs hi
  have hempty : s.cs = [] ↔ k = 0 := by
    rw [hcs, List.take_eq_nil_iff, or_iff_left (List.ne_nil_of_length_pos (Nat.zero_lt_of_lt hk))]
  rw [step_of_cut_frame hp hw hk hcs hi, waitReason_eq]
  simp only [hempty]

/-- Settles O3: bytes that decode to a command are its frame, and the nine bytes that decode to the header of an ABSORB are
all the engine takes where the phase turns it away. -/
theorem stepRunsTheDecodedCommand : Obligations.StepRunsTheDecodedCommand := by
  refine fun s hp => ⟨fun i rest hd => ?_, fun len rest hd ha => ?_⟩
  · obtain ⟨hw, hcs⟩ := decodedBytesAreTheFrame s.cs i rest hd
    exact ⟨hw, fun hi => step_of_encode hp hw hcs (.inl hi), fun _ _ _ ha => step_of_encode hp hw hcs (.inr ha)⟩
  · have hcs := eq_headerBytes_of_decodeHeader hd
    exact ⟨step_of_absorb_turned_away hp ha hcs, by
      rw [hcs]; exact (List.drop_left' (headerBytes_length (.absorb len))).symm⟩

/-- Settles O4: six closed decodings, each by evaluation. -/
theorem framesOfTheSpecDecode : Obligations.FramesOfTheSpecDecode := by
  unfold Obligations.FramesOfTheSpecDecode
  decide

end Sys2Proof.Proofs
end

section
/-! What is unspecified has no influence (spec/10_state.md R25, R46, R49): states that agree on the rest go on to agree on
the rest. In phase ACTIVE the rest is what `Absorbed` speaks of, so the argument there is that two states which have taken
in the same input hold the same. -/

namespace Sys2Proof.Proofs

open Sys2Proof.Machine Sys2Proof.Safety

/-- Outside phase ACTIVE nothing but the streams, `phase` and `cause` is specified (R46, R49). -/
theorem agree_of_not_active {s s' : State} (hp : s.phase ≠ .active) (hcs : s.cs = s'.cs) (hds : s.ds = s'.ds)
    (hphase : s.phase = s'.phase) (hcause : s.cause = s'.cause) : AgreeOnSpecified s s' :=
  ⟨hcs, hds, hphase, hcause, fun h => absurd h hp, fun h => absurd h hp⟩

theorem agree_setStream {s s' : State} (h : AgreeOnSpecified s s') (cs : List Byte) :
    AgreeOnSpecified (setStream cs s) (setStream cs s') :=
  ⟨rfl, h.ds, h.phase, h.cause, h.activeRegisters, h.activeBuffer⟩

theorem agree_takeFault {s s' : State} (h : AgreeOnSpecified s s') (c : Cause) :
    AgreeOnSpecified (takeFault c s) (takeFault c s') :=
  agree_of_not_active nofun h.cs h.ds rfl rfl

/-- CONSTRUCT writes every specified register, and leaves the buffer empty (R124). -/
theorem agree_newInstance {s s' : State} (h : AgreeOnSpecified s s') (nn kk : Byte) (salt info : List Byte) :
    AgreeOnSpecified (newInstance nn kk salt info s) (newInstance nn kk salt info s') :=
  ⟨h.cs, h.ds, rfl, h.cause, fun _ => ⟨rfl, rfl, rfl, rfl, rfl, rfl, rfl⟩, fun _ => rfl⟩

/-- The other state has taken in the same bytes since the same chaining value and counter. -/
theorem agree_absorbed {s s' : State} (h : AgreeOnSpecified s s') (hp : s.phase = .active) :
    Absorbed s.h (counter s) (bufPrefix s.buf s.n.val) s' := by
  obtain ⟨hh, h0, h1, _, _, hn, _⟩ := h.activeRegisters hp
  have hc : counter s = counter s' := by rw [counter, counter, h0, h1]
  rw [h.activeBuffer hp, hh, hc, hn]
  exact absorbed_buffer s'

theorem agree_absorbBody {s s' : State} (h : AgreeOnSpecified s s') (hp : s.phase = .active) (data : List Byte) :
    AgreeOnSpecified (absorbBody data s) (absorbBody data s') := by
  obtain ⟨_, _, _, hf0, hf1, _, hlen⟩ := h.activeRegisters hp
  obtain ⟨chain, low, high, held, rest⟩ := (absorbed_buffer s).absorbBody data
  obtain ⟨chain', low', high', held', rest'⟩ := (agree_absorbed h hp).absorbBody data
  have hn : (absorbBody data s).n = (absorbBody data s').n := Fin.ext (held.trans held'.symm)
  have hf0 : (absorbBody data s).f0 = (absorbBody data s').f0 := by rw [absorbBody_f0, absorbBody_f0, hf0]
  have hf1 : (absorbBody data s).f1 = (absorbBody data s').f1 := by rw [absorbBody_f1, absorbBody_f1, hf1]
  rw [hf0, hf1] at chain
  constructor
  · rw [absorbBody_cs, absorbBody_cs, h.cs]
  · rw [absorbBody_ds, absorbBody_ds, h.ds]
  · rw [absorbBody_phase, absorbBody_phase, h.phase]
  · rw [absorbBody_cause, absorbBody_cause, h.cause]
  · intro _
    exact ⟨chain.trans chain'.symm, low.trans low'.symm, high.trans high'.symm, hf0, hf1, hn,
      by rw [absorbBody_outputLength, absorbBody_outputLength, hlen]⟩
  · intro _
    rw [rest, hn, rest']

/-- FINISH pads the stale cells before F reads them, so the digest is that of the bytes taken in (R211, R213). -/
theorem agree_finishBody {s s' : State} (h : AgreeOnSpecified s s') (hp : s.phase = .active) :
    AgreeOnSpecified (finishBody s) (finishBody s') := by
  obtain ⟨_, _, _, hf0, hf1, _, hlen⟩ := h.activeRegisters hp
  have hdigest : (compressLast s).h = (compressLast s').h := by
    rw [(absorbed_buffer s).compressLast_h, (agree_absorbed h hp).compressLast_h, hf0, hf1]
  exact agree_of_not_active nofun h.cs (by rw [finishBody_ds, finishBody_ds, h.ds, hdigest, hlen]) rfl h.cause

/-! The command and the step. -/

theorem agree_construct {s s' : State} (h : AgreeOnSpecified s s') (nn kk sl il : Byte) (key salt info : List Byte) :
    AgreeOnSpecified (construct nn kk sl il key salt info s) (construct nn kk sl il key salt info s') := by
  by_cases hp : s.phase = .fault
  · rw [construct_ignored _ _ _ _ _ _ _ s hp, construct_ignored _ _ _ _ _ _ _ s' (h.phase.symm.trans hp)]
    exact h
  · have hp' : s'.phase ≠ .fault := h.phase ▸ hp
    cases hr : paramsInRange nn kk sl il with
    | false =>
      rw [construct_rejected _ _ _ _ _ _ _ s hp hr, construct_rejected _ _ _ _ _ _ _ s' hp' hr]
      exact agree_takeFault h .paramRange
    | true =>
      rw [construct_accepted _ _ _ _ _ _ _ s hp hr, construct_accepted _ _ _ _ _ _ _ s' hp' hr,
        ite_absorbBody_keyBlock, ite_absorbBody_keyBlock]
      exact agree_absorbBody (agree_newInstance h nn kk salt info) rfl _

theorem exec_agree {s s' : State} (h : AgreeOnSpecified s s') (i : Instr) :
    ∃ t t', exec i s = .next t ∧ exec i s' = .next t' ∧ AgreeOnSpecified t t' := by
  have hphase : s'.phase = s.phase := h.phase.symm
  cases i with
  | init nn => exact ⟨_, _, rfl, rfl, agree_construct h ..⟩
  | initMac nn kk key => exact ⟨_, _, rfl, rfl, agree_construct h ..⟩
  | initKdf nn kk sl il key salt info => exact ⟨_, _, rfl, rfl, agree_construct h ..⟩
  | absorb len data =>
    cases hp : s.phase <;> rw [hp] at hphase
    case idle => exact ⟨_, _, exec_absorb_idle hp .., exec_absorb_idle hphase .., agree_takeFault h _⟩
    case consumed => exact ⟨_, _, exec_absorb_consumed hp .., exec_absorb_consumed hphase .., agree_takeFault h _⟩
    case fault => exact ⟨_, _, exec_fault hp _, exec_fault hphase _, h⟩
    case active => exact ⟨_, _, exec_absorb_active hp .., exec_absorb_active hphase .., agree_absorbBody h hp data⟩
  | finish rl =>
    cases hp : s.phase <;> rw [hp] at hphase
    case idle => exact ⟨_, _, exec_finish_idle hp rl, exec_finish_idle hphase rl, agree_takeFault h _⟩
    case consumed => exact ⟨_, _, exec_finish_consumed hp rl, exec_finish_consumed hphase rl, agree_takeFault h _⟩
    case fault => exact ⟨_, _, exec_fault hp _, exec_fault hphase _, h⟩
    case active =>
      obtain ⟨_, _, _, _, _, _, hlen⟩ := h.activeRegisters hp
      by_cases hl : rl.toNat = s.outputLength.toNat
      · exact ⟨_, _, exec_finish_active hp hl, exec_finish_active hphase (hlen ▸ hl), agree_finishBody h hp⟩
      · exact ⟨_, _, exec_finish_mismatch hp hl, exec_finish_mismatch hphase (hlen ▸ hl), agree_takeFault h _⟩

/-- Settles O39: `phase` and CS alone decide what a step takes from CS, and the command keeps the agreement. -/
theorem unspecifiedStateNeverMatters : Obligations.UnspecifiedStateNeverMatters := by
  intro s s' h
  by_cases hp : s.phase = .fault
  · exact .inl ⟨_, _, step_fault s hp, step_fault s' (h.phase.symm.trans hp), agree_setStream h []⟩
  · have hp' : s'.phase ≠ .fault := h.phase ▸ hp
    simp only [step, fetch_parsing s hp, fetch_parsing s' hp', fetchFrame, ← h.cs, ← h.phase]
    cases decodeHeader s.cs with
    | incomplete => exact .inr ⟨_, rfl, rfl⟩
    | illegal op rest => exact .inl ⟨_, _, rfl, rfl, agree_takeFault (agree_setStream h rest) _⟩
    | header hd rest =>
      cases hpay : decodePayload (payloadAwaited s.phase hd) hd rest with
      | incomplete =>
        simp only [hpay]
        exact .inr ⟨_, rfl, rfl⟩
      | illegal op rest' => exact absurd hpay (decodePayload_ne_illegal _ _ _ _ _)
      | instr i rest' =>
        simp only [hpay]
        exact .inl (exec_agree (agree_setStream h rest') i)

end Sys2Proof.Proofs
end
